-- ==== Sys2Proof/Word.lean ====
section
/-! DEFINITION. The word types of the block (spec 00_scope.md R6, R7, R10): bytes, the 32-bit word every
schedule word, working variable and chaining word is, the 64-bit NONCE, and the fixed-length word arrays. -/

namespace Sys2Proof

/-- A byte (`u8` of R13). -/
abbrev Byte := BitVec 8

/-- The word of R6, `u32` of R13. Its `+` is ADD32: it wraps mod 2^32 (R100). -/
abbrev Word := BitVec 32

/-- The value of the 64-bit NONCE register (R10, R24). -/
abbrev Nonce := BitVec 64

/-- Eight words: the chaining state H, TARGET (R7, R25, R28). -/
abbrev Words8 := Vector Word 8

/-- Sixteen words: one 512-bit block (R7, R27). -/
abbrev Words16 := Vector Word 16

end Sys2Proof
end

