-- ==== Sys2Proof/Syntax.lean ====
section
/-! DEFINITION. The command set: one constructor per row of spec/opcode_table.json (spec 30_encoding.md R85). The
table's five reserved rows tile one opcode range under one mnemonic and one rule (R86, R201): they are one
constructor, which keeps the opcode and the operand field. -/

namespace Sys2Proof

/-- A command of the opcode map (R85). Operands are the unsigned integers of R84; an operand that does not fit its
field is ill-formed (`Instr.wf`), as the assembler of R90 refuses it. -/
inductive Instr where
  /-- NOP, opcode 0x00, format N (R149). -/
  | nop
  /-- INIT, opcode 0x01, format N (R150). -/
  | init
  /-- COMPRESS, opcode 0x02, format N (R151). -/
  | compress
  /-- DIGEST LEN, opcode 0x03, format L (R152). -/
  | digest (len : Nat)
  /-- DIGEST2 LEN, opcode 0x04, format L (R153). -/
  | digest2 (len : Nat)
  /-- COMPARE, opcode 0x05, format N (R179). -/
  | compare
  /-- TRY PLEN, W, opcode 0x06, format S (R180). -/
  | tryNonce (plen w : Nat)
  /-- SEARCH PLEN, W, opcode 0x07, format S (R181). -/
  | search (plen w : Nat)
  /-- A reserved opcode 0x08 to 0xFF with its bits [23:0], which nothing reads (R86, R201). -/
  | reserved (opc : BitVec 8) (operand : BitVec 24)
  deriving DecidableEq, Repr

end Sys2Proof
end

