-- ==== Sys2Proof/WellFormed.lean ====
section
/-! DEFINITION. Which terms of Instr have an encoding: every operand fits its field (spec 30_encoding.md R82, R83, R90)
and a reserved opcode lies in 0x08 to 0xFF (R86). An encodable operand may still be refused at issue (R90). -/

namespace Sys2Proof

/-- `len` fits the 16-bit field of format L (R82, R90: 0 <= len <= 0xFFFF). -/
def Instr.lenFits (len : Nat) : Bool := len ≤ 0xFFFF

/-- `plen` and `w` fit the fields of format S (R83, R90: 0 <= w <= 15, 0 <= plen <= 0xFFFF). -/
def Instr.searchFits (plen w : Nat) : Bool := plen ≤ 0xFFFF && w ≤ 15

/-- The term has an encoding (R81 to R83, R86, R90). -/
def Instr.wf : Instr → Bool
  | .nop | .init | .compress | .compare => true
  | .digest len | .digest2 len => Instr.lenFits len
  | .tryNonce plen w | .search plen w => Instr.searchFits plen w
  | .reserved opc _ => 0x08 ≤ opc.toNat

end Sys2Proof
end

