-- ==== Sys2Proof/Decode.lean ====
section
/-! DEFINITION. Decoding a command word and encoding a command (spec 30_encoding.md R80 to R89). Decoding is total over
the 2^32 words: a word of a defined opcode with a nonzero reserved bit is rejected by name (R87), a word of a reserved
opcode decodes to the constructor that records ILLEGAL_OPCODE (R86), every other word to its command. -/

namespace Sys2Proof

/-- Why a word is no command. -/
inductive DecodeError where
  /-- A defined opcode with a nonzero reserved operand bit (R87). The block records error 0x02 (R202): exact, so safe. -/
  | reservedBits
  deriving DecidableEq, Repr

/-- `OPC = c[31:24]` (R80). -/
def opcodeOf (c : Word) : BitVec 8 := c.extractLsb' 24 8

/-- Format N (R81): bits [23:0] must be zero. -/
def decodeN (c : Word) (i : Instr) : Except DecodeError Instr :=
  if c.extractLsb' 0 24 = 0 then .ok i else .error .reservedBits

/-- Format L (R82): bits [23:16] must be zero; `LEN = zext(c[15:0])` (R84). -/
def decodeL (c : Word) (i : Nat → Instr) : Except DecodeError Instr :=
  if c.extractLsb' 16 8 = 0 then .ok (i (c.extractLsb' 0 16).toNat) else .error .reservedBits

/-- Format S (R83): bits [23:20] must be zero; `PLEN = zext(c[15:0])`, `W = zext(c[19:16])` (R84). -/
def decodeS (c : Word) (i : Nat → Nat → Instr) : Except DecodeError Instr :=
  if c.extractLsb' 20 4 = 0 then .ok (i (c.extractLsb' 0 16).toNat (c.extractLsb' 16 4).toNat)
  else .error .reservedBits

/-- The decoder of R89: the opcode is looked at first, then the reserved bits (R211: 0x01 before 0x02). -/
def decode (c : Word) : Except DecodeError Instr :=
  match (opcodeOf c).toNat with
  | 0x00 => decodeN c .nop
  | 0x01 => decodeN c .init
  | 0x02 => decodeN c .compress
  | 0x03 => decodeL c .digest
  | 0x04 => decodeL c .digest2
  | 0x05 => decodeN c .compare
  | 0x06 => decodeS c .tryNonce
  | 0x07 => decodeS c .search
  | _ => .ok (.reserved (opcodeOf c) (c.extractLsb' 0 24))

/-- A format N word (R81). -/
def encodeN (opc : BitVec 8) : Word := opc ++ 0#24

/-- A format L word (R82). -/
def encodeL (opc : BitVec 8) (len : Nat) : Word := opc ++ 0#8 ++ BitVec.ofNat 16 len

/-- A format S word (R83). -/
def encodeS (opc : BitVec 8) (plen w : Nat) : Word := opc ++ 0#4 ++ BitVec.ofNat 4 w ++ BitVec.ofNat 16 plen

/-- The command word of a command, from the opcode map and the formats (R81 to R85). -/
def encode : Instr → Word
  | .nop => encodeN 0x00
  | .init => encodeN 0x01
  | .compress => encodeN 0x02
  | .digest len => encodeL 0x03 len
  | .digest2 len => encodeL 0x04 len
  | .compare => encodeN 0x05
  | .tryNonce plen w => encodeS 0x06 plen w
  | .search plen w => encodeS 0x07 plen w
  | .reserved opc operand => opc ++ operand

/-- The assembler (R90): it refuses an operand that does not fit its field, and nothing else. -/
def assemble (i : Instr) : Option Word := if i.wf then some (encode i) else none

/-- The command a table word of `nbits` bits stands for. A command is always one 32-bit word (R80), written to CMD as
one bus value, so no byte order enters; the bits above `nbits` are 0. -/
def decodeTableWord (nbits w : Nat) : Option Instr :=
  if nbits ≤ 32 then
    match decode (BitVec.ofNat 32 (w % 2 ^ nbits)) with
    | .ok i => some i
    | .error _ => none
  else none

end Sys2Proof
end

