-- ==== Sys2Proof/Config.lean ====
section
/-! DEFINITION. What a build of the block fixes (spec R9, R10) and the free values: what a host read returns where the
spec gives no value (spec 93_implementation_defined.md U1, U2, U4). A free value is an opaque constant applied to the
draw counter that State carries, so two draws need not agree and no proof can see either (log entry 4). -/

namespace Sys2Proof.Config

/-- Least legal `MSG_BYTES` (R9). -/
def msgBytesMin : Nat := 80

/-- Greatest legal `MSG_BYTES`, the size of the MSG window (R9). -/
def msgBytesMax : Nat := 4096

/-- The default of the parameter `MSG_BYTES` (R9). -/
def msgBytesDefault : Nat := 4096

/-- The constraint R9 puts on the parameter `MSG_BYTES`. -/
def legalMsgBytes (n : Nat) : Bool := msgBytesMin ≤ n && n ≤ msgBytesMax && n % 4 == 0

/-- `NONCE_W_MAX`, the greatest legal nonce width in bytes (R10). -/
def nonceWMax : Nat := 8

/-- U1: the word a 4-byte host read of a mapped offset other than STATUS returns while BUSY = 1 (R235). -/
opaque busyWord : Nat → Word

/-- U1: the byte a 1-byte host read of MSG returns while BUSY = 1 (R235). -/
opaque busyByte : Nat → Byte

/-- U2: the LE, FOUND and EXH bits (in this order from bit 0) of a STATUS read while BUSY = 1 (R235). -/
opaque busyFlags : Nat → BitVec 3

/-- U4: the byte a host read returns for an unwritten byte of MSG while BUSY = 0 (R54, R62). -/
opaque unwrittenByte : Nat → Byte

end Sys2Proof.Config
end

