-- ==== Sys2Proof/Machine/Datapath.lean ====
section
/-! DEFINITION. The compression datapath (spec 40_datapath.md R100 to R118): pure functions on words. ADD32 and
multi-operand addition (R100, R101) are the `+` of Word. -/

namespace Sys2Proof.Machine

/-- ROTR^n (R102), for 0 < n < 32. -/
def rotr (n : Nat) (x : Word) : Word := (x >>> n) ||| (x <<< (32 - n))

/-- SHR^n (R103). -/
def shr (n : Nat) (x : Word) : Word := x >>> n

/-- Ch (R105). -/
def ch (x y z : Word) : Word := (x &&& y) ^^^ (~~~x &&& z)

/-- Maj (R106). -/
def maj (x y z : Word) : Word := (x &&& y) ^^^ (x &&& z) ^^^ (y &&& z)

/-- Σ0 (R107). -/
def bigSigma0 (x : Word) : Word := rotr 2 x ^^^ rotr 13 x ^^^ rotr 22 x

/-- Σ1 (R108). -/
def bigSigma1 (x : Word) : Word := rotr 6 x ^^^ rotr 11 x ^^^ rotr 25 x

/-- σ0 (R109). -/
def smallSigma0 (x : Word) : Word := rotr 7 x ^^^ rotr 18 x ^^^ shr 3 x

/-- σ1 (R110). -/
def smallSigma1 (x : Word) : Word := rotr 17 x ^^^ rotr 19 x ^^^ shr 10 x

/-- The next schedule word from the ones so far, newest first: `W[t-2]`, `W[t-7]`, `W[t-15]` and `W[t-16]` stand at 1,
6, 14 and 15 (R113). -/
def nextScheduleWord (recent : List Word) : Word :=
  smallSigma1 (recent.getD 1 0) + recent.getD 6 0 + smallSigma0 (recent.getD 14 0) + recent.getD 15 0

/-- `n` further schedule words, newest first (R113). -/
def expandSchedule : Nat → List Word → List Word
  | 0, recent => recent
  | n + 1, recent => expandSchedule n (nextScheduleWord recent :: recent)

/-- The message schedule `W[0..63]` of a block (R113). -/
def schedule (m : Words16) : List Word := (expandSchedule 48 m.toList.reverse).reverse

/-- The working variables `a..h` (R30). -/
structure Vars where
  a : Word
  b : Word
  c : Word
  d : Word
  e : Word
  f : Word
  g : Word
  h : Word
  deriving DecidableEq, Repr

/-- The load at the start of a compression (R115). -/
def Vars.load (hin : Words8) : Vars :=
  ⟨hin[0], hin[1], hin[2], hin[3], hin[4], hin[5], hin[6], hin[7]⟩

/-- One compression round with its constant and its schedule word (R114). -/
def roundStep (v : Vars) (k w : Word) : Vars :=
  let t1 := v.h + bigSigma1 v.e + ch v.e v.f v.g + k + w
  let t2 := bigSigma0 v.a + maj v.a v.b v.c
  ⟨t1 + t2, v.a, v.b, v.c, v.d + t1, v.e, v.f, v.g⟩

/-- The rounds in order, round `t` with `K[t]` and `W[t]` (R115). -/
def rounds (w : List Word) (v : Vars) : Vars :=
  (roundConstants.zip w).foldl (fun v kw => roundStep v kw.1 kw.2) v

/-- The final addition (R116). -/
def finalAdd (hin : Words8) (v : Vars) : Words8 :=
  #v[hin[0] + v.a, hin[1] + v.b, hin[2] + v.c, hin[3] + v.d, hin[4] + v.e, hin[5] + v.f, hin[6] + v.g, hin[7] + v.h]

/-- The working variables after round 63 of one block (R115). -/
def varsAfter (hin : Words8) (m : Words16) : Vars := rounds (schedule m) (Vars.load hin)

/-- Compress (R117): one block into the chaining state. -/
def compress (hin : Words8) (m : Words16) : Words8 := finalAdd hin (varsAfter hin m)

end Sys2Proof.Machine
end

