-- ==== Sys2Proof/Machine/State.lean ====
section
/-! DEFINITION. The machine state as plain data (spec 10_state.md R20 to R36), the inputs the outside world gives the
block (host accesses, R52, and the RESET line, R230), why a step can stop, and the state after reset (spec
70_reset_and_hazards.md R230). -/

namespace Sys2Proof.Machine

/-- Why a step stops. -/
inductive Fault where
  /-- The engine reads a byte of MSG that nothing has written, in DIGEST, DIGEST2, TRY or SEARCH (R62, U3: the spec makes
  a model stop there). Raised by those four meanings. Safe: the hardware goes on with an unspecified value. -/
  | unwrittenMessageByte
  deriving DecidableEq, Repr

/-- Why an instruction has no meaning. -/
inductive Refusal where
  /-- The instruction has no meaning yet. Raised by arms of `exec` only; no arm raises it. Safe. -/
  | notModelled (mnemonic : String)
  deriving DecidableEq, Repr

/-- STATUS without BUSY, which the engine state gives (R23, R32). The reserved bits hold nothing (RAZ/WI). -/
structure Status where
  /-- STATUS[1]: an error has been recorded since ERR was last cleared. -/
  err : Bool
  /-- STATUS[2]: the result of the last comparison. -/
  le : Bool
  /-- STATUS[3]: the last SEARCH found a nonce. -/
  found : Bool
  /-- STATUS[4]: the last SEARCH ended in exhaustion. -/
  exh : Bool
  /-- STATUS[15:8]: the code of the first error recorded since ERR was last cleared. -/
  errCode : Byte
  deriving DecidableEq, Repr

/-- The message memory MSG (R29): the bytes that have been written, by index, in strictly rising order. An index that is
not listed is unwritten: it holds no value (log entry 12). -/
abbrev Memory := List Host.Cell

/-- The control state of the engine (R32). -/
inductive Engine where
  /-- No command executes. -/
  | idle
  /-- The accepted command executes; `left` further inputs fall before its completion (R218, U6, U7; log entries 2 and
  11). -/
  | busy (i : Instr) (left : Nat)
  deriving DecidableEq, Repr

/-- The phase of a DIGEST2, TRY or SEARCH (R32). -/
inductive Phase where
  | firstDigest
  | secondDigest
  | compare
  deriving DecidableEq, Repr

/-- The internal state of the engine (R30 to R33). No command reads it before it writes it (R34), and the host cannot see
it (R224). -/
structure Internal where
  /-- The working variables (R30). -/
  vars : Vars
  /-- The message schedule `W[0..63]` (R31). -/
  sched : Vector Word 64
  /-- The round counter `t` (R32). -/
  round : Fin 64
  /-- The index of the current block (R32). -/
  blockIndex : Nat
  /-- The current trial nonce of a SEARCH (R32). -/
  trial : Nonce
  /-- The phase of a DIGEST2, TRY or SEARCH (R32). -/
  phase : Phase
  /-- The first digest of a DIGEST2, TRY or SEARCH (R33). -/
  d1 : Vector Byte 32
  deriving DecidableEq, Repr

/-- Whether a host access reads or writes (R52). -/
inductive AccessKind where
  | read
  | write
  deriving DecidableEq, Repr

/-- The size of a host access: 1, 2 or 4 bytes (R11, R52). -/
inductive AccessSize where
  | one
  | two
  | four
  deriving DecidableEq, Repr

/-- A host access (R52). A read carries no data: `data` is then not looked at. -/
structure Access where
  kind : AccessKind
  off : BitVec 13
  size : AccessSize
  data : Word
  deriving DecidableEq, Repr

/-- What the outside world does to the block, one thing at a time (R20, R63, R230). -/
inductive Input where
  /-- The host performs an access. Where it is a CMD write whose command is accepted, `hold` further inputs fall before
  that command completes (R218, U6, U7; DESIGN CHOICE, log entry 2); nothing else looks at `hold`. -/
  | access (a : Access) (hold : Nat)
  /-- RESET is asserted (R230, R231). -/
  | reset
  deriving DecidableEq, Repr

/-- The state of the block. -/
structure State where
  /-- CMD: the last accepted command word (R22). -/
  cmd : Word
  /-- STATUS but for BUSY (R23). -/
  status : Status
  /-- NONCE = {NONCE_HI, NONCE_LO} (R24). -/
  nonce : Nonce
  /-- H[0..7], the chaining state (R25). -/
  h : Words8
  /-- BLOCK[0..15] (R27). -/
  block : Words16
  /-- TARGET[0..7] (R28). -/
  target : Words8
  /-- MSG (R29). -/
  msg : Memory
  /-- The control state of the engine; STATUS.BUSY is read from it (R32). -/
  eng : Engine
  /-- The internal state of the engine (R30 to R33). -/
  internal : Internal
  /-- The parameter MSG_BYTES of this build (R9): no step changes it (log entry 5). -/
  msgBytes : Nat
  /-- The model's own: the inputs still to come, the next one first (log entry 1). -/
  inputs : List Input
  /-- The model's own: the value the last host read returned (R52; log entry 8). -/
  readData : Word
  /-- The model's own: how many free values have been drawn (U1, U2, U4; log entry 4). -/
  draws : Nat
  deriving DecidableEq, Repr

/-- STATUS after reset (R230). -/
def Status.reset : Status := ⟨false, false, false, false, 0⟩

/-- The internal state after reset: the spec gives no value (R230, U5). DESIGN CHOICE: zero
(log entry 7). -/
def Internal.reset : Internal :=
  ⟨⟨0, 0, 0, 0, 0, 0, 0, 0⟩, Vector.replicate 64 0, 0, 0, 0, .firstDigest, Vector.replicate 32 0⟩

/-- The state after reset (R230): H = IV, every other register 0, MSG unwritten, the engine idle. -/
def State.reset : State where
  cmd := 0
  status := Status.reset
  nonce := 0
  h := initialChaining
  block := Vector.replicate 16 0
  target := Vector.replicate 8 0
  msg := []
  eng := .idle
  internal := Internal.reset
  msgBytes := Config.msgBytesDefault
  inputs := []
  readData := 0
  draws := 0

end Sys2Proof.Machine
end

