-- ==== Sys2Proof/Machine/Operands.lean ====
section
/-! DEFINITION. The operand forms: which register or MSG byte a host access names (spec 20_memory.md R21, R50 to R53),
the checks of an access (R52, R210), and the operand checks of a command at issue (spec 30_encoding.md R89,
60_exceptions.md R201 to R206, R211). -/

namespace Sys2Proof.Machine

/-- The errors of the block (spec 60_exceptions.md R201 to R209). -/
inductive CmdError where
  | illegalOpcode
  | reservedBits
  | badLength
  | badNonceWidth
  | candidateTooLong
  | nonceRange
  | busy
  | badAddress
  | badAccess
  deriving DecidableEq, Repr

/-- The code ERRCODE records (R201 to R209). -/
def CmdError.code : CmdError → Byte
  | .illegalOpcode => 0x01
  | .reservedBits => 0x02
  | .badLength => 0x03
  | .badNonceWidth => 0x04
  | .candidateTooLong => 0x05
  | .nonceRange => 0x06
  | .busy => 0x07
  | .badAddress => 0x08
  | .badAccess => 0x09

/-- The host-visible registers (R21). -/
inductive Reg where
  | cmd
  | status
  | nonceLo
  | nonceHi
  | h (i : Fin 8)
  | block (i : Fin 16)
  | target (i : Fin 8)
  deriving DecidableEq, Repr

/-- The offset of a register (R21). -/
def Reg.offset : Reg → Nat
  | .cmd => 0x000
  | .status => 0x004
  | .nonceLo => 0x008
  | .nonceHi => 0x00C
  | .h i => 0x020 + 4 * i.val
  | .block i => 0x040 + 4 * i.val
  | .target i => 0x080 + 4 * i.val

/-- What an offset names (R52). -/
inductive Region where
  | reg (r : Reg)
  | msg (a : Nat)
  | unmapped
  deriving DecidableEq, Repr

/-- `classify(off)` (R52) over the register map of R21 and the MSG window of R51. -/
def classify (msgBytes : Nat) (off : BitVec 13) : Region :=
  let n := off.toNat
  if n < 0x004 then .reg .cmd
  else if n < 0x008 then .reg .status
  else if n < 0x00C then .reg .nonceLo
  else if n < 0x010 then .reg .nonceHi
  else if n < 0x020 then .unmapped
  else if n < 0x040 then .reg (.h (Fin.ofNat 8 ((n - 0x020) / 4)))
  else if n < 0x080 then .reg (.block (Fin.ofNat 16 ((n - 0x040) / 4)))
  else if n < 0x0A0 then .reg (.target (Fin.ofNat 8 ((n - 0x080) / 4)))
  else if n < 0x1000 then .unmapped
  else if n < 0x1000 + msgBytes then .msg (n - 0x1000)
  else .unmapped

/-- The size and alignment check of an access to a mapped offset (R52, R209): a register takes 4 bytes at its own
offset, MSG takes 1 byte anywhere and 4 bytes at an index that is a multiple of 4. -/
def badlyFormed (region : Region) (off : BitVec 13) (size : AccessSize) : Bool :=
  match size, region with
  | .two, _ => true
  | .one, .reg _ => true
  | .four, .reg _ => off.toNat % 4 != 0
  | .four, .msg a => a % 4 != 0
  | _, _ => false

/-- The checks of a host access, in the order of R52 and R210. -/
def accessError (s : State) (a : Access) : Option CmdError :=
  let region := classify s.msgBytes a.off
  if region = .unmapped then some .badAddress
  else if badlyFormed region a.off a.size then some .badAccess
  else if a.kind = .write ∧ s.eng ≠ .idle ∧ region ≠ .reg .status then some .busy
  else none

/-- The operand check of DIGEST and DIGEST2 (R89, R203). -/
def lenError (msgBytes len : Nat) : Option CmdError :=
  if len > msgBytes then some .badLength else none

/-- The operand checks TRY and SEARCH share, in the order of R89 (R204, R205). -/
def candidateError (msgBytes plen w : Nat) : Option CmdError :=
  if w = 0 ∨ w > Config.nonceWMax then some .badNonceWidth
  else if plen + w > msgBytes then some .candidateTooLong
  else none

/-- The range check of TRY on NONCE, after the others (R89, R206). -/
def nonceError (nonce : Nonce) (w : Nat) : Option CmdError :=
  if nonce.toNat ≥ 2 ^ (8 * w) then some .nonceRange else none

/-- The checks of a decoded command at issue, in the order of R89 and R211. -/
def issueError (s : State) : Instr → Option CmdError
  | .nop | .init | .compress | .compare => none
  | .digest len | .digest2 len => lenError s.msgBytes len
  | .tryNonce plen w => (candidateError s.msgBytes plen w).or (nonceError s.nonce w)
  | .search plen w => candidateError s.msgBytes plen w
  | .reserved _ _ => some .illegalOpcode

end Sys2Proof.Machine
end

