-- ==== Sys2Proof/Machine/Flags.lean ====
section
/-! DEFINITION. The flags of the block: the fields of STATUS (spec 10_state.md R23, R36), who sets each (spec
30_encoding.md R85), and the word a STATUS read returns. -/

namespace Sys2Proof.Machine

/-- STATUS.BUSY (R32): 1 exactly when the engine executes a command. -/
def State.busy (s : State) : Bool := decide (s.eng ≠ .idle)

/-- The STATUS word of the given fields (R23): the reserved bits [7:5] and [31:16] read 0. -/
def statusWordOf (busy err le found exh : Bool) (errCode : Byte) : Word :=
  0#16 ++ errCode ++ 0#3 ++ BitVec.ofBool exh ++ BitVec.ofBool found ++ BitVec.ofBool le ++ BitVec.ofBool err ++
    BitVec.ofBool busy

/-- The value of STATUS (R23). -/
def State.statusWord (s : State) : Word :=
  statusWordOf s.busy s.status.err s.status.le s.status.found s.status.exh s.status.errCode

/-- What a STATUS read returns while BUSY = 1 (R235): BUSY, ERR and ERRCODE true, the other three free (U2). -/
def State.busyStatusWord (s : State) : Word :=
  let free := Config.busyFlags s.draws
  statusWordOf true s.status.err (free.getLsbD 0) (free.getLsbD 1) (free.getLsbD 2) s.status.errCode

/-- STATUS.LE <- b: by COMPARE, TRY and SEARCH (R179 to R181). -/
def Status.setLe (st : Status) (b : Bool) : Status := { st with le := b }

/-- The flags a finished SEARCH writes (R181): LE and FOUND are 1 and EXH is 0 where a nonce was found, else the
complement. -/
def Status.setSearchResult (st : Status) (found : Bool) : Status :=
  { st with le := found, found := found, exh := !found }

/-- Recording an error in STATUS (R212): the first code since ERR was last cleared stays. -/
def Status.record (st : Status) (code : Byte) : Status :=
  if st.err then st else { st with err := true, errCode := code }

/-- Clearing ERR, which clears ERRCODE too (R23, R214). -/
def Status.clear (st : Status) : Status := { st with err := false, errCode := 0 }

end Sys2Proof.Machine
end

