-- ==== Sys2Proof/Machine/Hash.lean ====
section
/-! DEFINITION. Byte conversions (spec 00_scope.md R15, 10_state.md R26, R28) and the digest functions (spec
41_digest.md R140 to R147): pure functions on byte sequences. A byte sequence is a list, byte 0 first (R12). -/

namespace Sys2Proof.Machine

/-- `be32` of four bytes, the first most significant (R15). -/
def be32 (b0 b1 b2 b3 : Byte) : Word := b0 ++ b1 ++ b2 ++ b3

/-- `be32bytes` (R15). -/
def be32bytes (x : Word) : List Byte :=
  [x.extractLsb' 24 8, x.extractLsb' 16 8, x.extractLsb' 8 8, x.extractLsb' 0 8]

/-- `be64bytes` (R15), most significant byte first. -/
def be64bytes (x : Nat) : List Byte :=
  [56, 48, 40, 32, 24, 16, 8, 0].map fun k => BitVec.ofNat 8 (x >>> k)

/-- `le_bytes_W(n)` (R15, R173): byte `k` is `(n >> 8k) AND 0xFF`. -/
def leBytes : Nat → Nat → List Byte
  | 0, _ => []
  | w + 1, n => BitVec.ofNat 8 n :: leBytes w (n >>> 8)

/-- The byte view of eight words, each big-endian, word 0 first: `dbytes(H)` (R26) and `tbytes(TARGET)` (R28). -/
def wordsBytes (h : Words8) : List Byte := h.toList.flatMap be32bytes

/-- The number of zero bytes the padding of an `L`-byte message holds (R141). -/
def zeroBytes (len : Nat) : Nat := ((55 - (len : Int)) % 64).toNat

/-- Padding (R141). -/
def pad (m : List Byte) : List Byte :=
  m ++ [0x80] ++ List.replicate (zeroBytes m.length) 0 ++ be64bytes (8 * m.length)

/-- Block count (R142). -/
def nblocks (len : Nat) : Nat := (len + 8) / 64 + 1

/-- The big-endian words of a byte sequence (R143). -/
def beWords : List Byte → List Word
  | b0 :: b1 :: b2 :: b3 :: rest => be32 b0 b1 b2 b3 :: beWords rest
  | _ => []

/-- The first `n` entries of a list as an array of `n` (where the list is shorter, `d`). -/
def firstOf {α : Type} (n : Nat) (d : α) (l : List α) : Vector α n := Vector.ofFn fun i => l.getD i.val d

/-- The first sixteen words of a list as one block. -/
def blockOf (ws : List Word) : Words16 := firstOf 16 0 ws

/-- A list of words cut into `n` blocks of sixteen (R143). -/
def cutBlocks : Nat → List Word → List Words16
  | 0, _ => []
  | n + 1, ws => blockOf ws :: cutBlocks n (ws.drop 16)

/-- The blocks `M_0, M_1, …` of the padded message (R143). -/
def messageBlocks (m : List Byte) : List Words16 := cutBlocks (nblocks m.length) (beWords (pad m))

/-- DigestState (R144): every block in order, from IV. -/
def digestState (m : List Byte) : Words8 := (messageBlocks m).foldl compress initialChaining

/-- Digest (R145). -/
def digest (m : List Byte) : List Byte := wordsBytes (digestState m)

/-- Double digest `DD` (R147). -/
def doubleDigest (m : List Byte) : List Byte := digest (digest m)

end Sys2Proof.Machine
end

