-- ==== Sys2Proof/Machine/Ops.lean ====
section
/-! DEFINITION. The shared operations: MSG (spec 20_memory.md R51, R54, R61), raising an error and clearing it (spec
60_exceptions.md R212 to R214), accepting a command (spec 30_encoding.md R89), reading and writing a register (R53),
and RESET (spec 70_reset_and_hazards.md R230, R231). -/

namespace Sys2Proof.Machine

/-! ### MSG -/

/-- The canonical form: indexes strictly rising. An unlisted index is unwritten and no written byte equals that, so no
entry is superfluous. -/
def Memory.wf : Memory → Bool
  | [] => true
  | [_] => true
  | c :: d :: rest => c.1 < d.1 && Memory.wf (d :: rest)

/-- The byte at an index; `none` where it is unwritten (R29). -/
def Memory.read : Memory → Nat → Option Byte
  | [], _ => none
  | c :: rest, a => if a = c.1 then some c.2 else Memory.read rest a

/-- `MSG[a] <- b`. -/
def Memory.write : Memory → Nat → Byte → Memory
  | [], a, b => [(a, b)]
  | c :: rest, a, b =>
    if a < c.1 then (a, b) :: c :: rest
    else if a = c.1 then (a, b) :: rest
    else c :: Memory.write rest a b

/-- `MemRead(a, n)` (R14): `none` where a byte of it is unwritten. -/
def Memory.readBytes (mem : Memory) (a : Nat) : Nat → Option (List Byte)
  | 0 => some []
  | n + 1 =>
    match mem.read a, Memory.readBytes mem (a + 1) n with
    | some b, some bs => some (b :: bs)
    | _, _ => none

/-- `MemWrite(a, |bs|, bs)` (R14). -/
def Memory.writeBytes (mem : Memory) (a : Nat) : List Byte → Memory
  | [] => mem
  | b :: bs => Memory.writeBytes (mem.write a b) (a + 1) bs

/-! ### Errors -/

/-- `raise CmdError(code)` (R212): the error is recorded and nothing else changes (R213). The block saves nothing and
goes nowhere (R200, R219). -/
def State.raise (s : State) (e : CmdError) : State := { s with status := s.status.record e.code }

/-- A host write to STATUS (R23, R214): bit 1 set clears ERR and ERRCODE; every other bit is ignored. There is no other
return from an error (R215, R219). -/
def State.writeStatus (s : State) (v : Word) : State :=
  if v.getLsbD 1 then { s with status := s.status.clear } else s

/-! ### Commands -/

/-- Acceptance of a command (R22): CMD takes its word. -/
def State.accept (s : State) (i : Instr) : State := { s with cmd := encode i }

/-- The issue of a command and its execution as one instant (R89, R238): where a check fails the error is raised and the
command has no other effect, else it is accepted and `effect` is what the engine does. -/
def issue (i : Instr) (s : State) (effect : State → Host.Outcome State Fault Refusal) :
    Host.Outcome State Fault Refusal :=
  match issueError s i with
  | some e => .next (s.raise e)
  | none => effect (s.accept i)

/-- The internal state the compression of block `m` from `hin` leaves (R30, R31, R32, R114, R115). -/
def Internal.compressed (n : Internal) (hin : Words8) (m : Words16) : Internal :=
  { n with vars := varsAfter hin m, sched := firstOf 64 0 (schedule m), round := 63 }

/-- The internal state the digest of `m` leaves: that of its last block (R144). -/
def Internal.digested (n : Internal) (m : List Byte) : Internal :=
  let bs := messageBlocks m
  { n.compressed (bs.dropLast.foldl compress initialChaining) (bs.getLastD (blockOf [])) with
    blockIndex := nblocks m.length - 1 }

/-- The internal state the double digest of `m` leaves: D1 holds the first digest (R33, R147). -/
def Internal.doubleDigested (n : Internal) (m : List Byte) : Internal :=
  { n.digested (digest m) with d1 := firstOf 32 0 (digest m), phase := .secondDigest }

/-! ### Registers -/

/-- `NONCE = {NONCE_HI, NONCE_LO}` (R24). -/
def nonceOf (hi lo : Word) : Nonce := hi ++ lo

/-- NONCE_LO: bits [31:0] of NONCE (R24). -/
def nonceLo (n : Nonce) : Word := n.extractLsb' 0 32

/-- NONCE_HI: bits [63:32] of NONCE (R24). -/
def nonceHi (n : Nonce) : Word := n.extractLsb' 32 32

/-- The value of a register (R53). -/
def State.readReg (s : State) : Reg → Word
  | .cmd => s.cmd
  | .status => s.statusWord
  | .nonceLo => nonceLo s.nonce
  | .nonceHi => nonceHi s.nonce
  | .h i => s.h[i]
  | .block i => s.block[i]
  | .target i => s.target[i]

/-- A host write to a register while BUSY = 0 (R53). A write to CMD issues a command (`commandWrite`) and is no plain
write: here it leaves the state alone. -/
def State.writeReg (s : State) (v : Word) : Reg → State
  | .cmd => s
  | .status => s.writeStatus v
  | .nonceLo => { s with nonce := nonceOf (nonceHi s.nonce) v }
  | .nonceHi => { s with nonce := nonceOf v (nonceLo s.nonce) }
  | .h i => { s with h := s.h.set i v }
  | .block i => { s with block := s.block.set i v }
  | .target i => { s with target := s.target.set i v }

/-- The state RESET leaves (R230, R231): every register at its reset value, MSG unwritten, the engine idle. What is no
state of the block stays: the build's parameter, the inputs to come, what the host has read, the draw counter. -/
def State.resetFrom (s : State) : State :=
  { State.reset with msgBytes := s.msgBytes, inputs := s.inputs, readData := s.readData, draws := s.draws }

end Sys2Proof.Machine
end

