-- ==== Sys2Proof/Machine/DigestEngine.lean ====
section
/-! DEFINITION. The meanings of the Digest Engine's commands (spec 41_digest.md R149 to R153) and of the reserved
opcodes (spec 60_exceptions.md R201). Each is the whole command at one instant: its checks at issue, its acceptance, its
effect and its completion (R238). -/

namespace Sys2Proof.Machine

/-- NOP (R149). -/
def execNop (s : State) : Host.Outcome State Fault Refusal :=
  issue .nop s fun s => .next s

/-- INIT (R150). -/
def execInit (s : State) : Host.Outcome State Fault Refusal :=
  issue .init s fun s => .next { s with h := initialChaining }

/-- COMPRESS (R151). -/
def execCompress (s : State) : Host.Outcome State Fault Refusal :=
  issue .compress s fun s =>
    .next { s with h := compress s.h s.block, internal := s.internal.compressed s.h s.block }

/-- DIGEST LEN (R152). -/
def execDigest (len : Nat) (s : State) : Host.Outcome State Fault Refusal :=
  issue (.digest len) s fun s =>
    match s.msg.readBytes 0 len with
    | some m => .next { s with h := digestState m, internal := s.internal.digested m }
    | none => .fault .unwrittenMessageByte

/-- DIGEST2 LEN (R153). -/
def execDigest2 (len : Nat) (s : State) : Host.Outcome State Fault Refusal :=
  issue (.digest2 len) s fun s =>
    match s.msg.readBytes 0 len with
    | some m => .next { s with h := digestState (digest m), internal := s.internal.doubleDigested m }
    | none => .fault .unwrittenMessageByte

/-- A reserved opcode (R86, R201): refused with ILLEGAL_OPCODE, no other effect (log entry 10). -/
def execReserved (opc : BitVec 8) (operand : BitVec 24) (s : State) : Host.Outcome State Fault Refusal :=
  issue (.reserved opc operand) s fun s => .next s

end Sys2Proof.Machine
end

