-- ==== Sys2Proof/Machine/Harness.lean ====
section
/-! DEFINITION. The comparator and the search functions (spec 42_search.md R170 to R176): pure functions on byte
sequences. -/

namespace Sys2Proof.Machine

/-- `N(b)` (R15, R170): byte 0 is the least significant. -/
def numberOf : List Byte → Nat
  | [] => 0
  | b :: bs => b.toNat + 256 * numberOf bs

/-- The numeric comparator (R171), unsigned, inclusive bound. -/
def lessOrEqual (d t : List Byte) : Bool := numberOf d ≤ numberOf t

/-- Candidate assembly `cand(P, W, n)` (R174). -/
def candidate (p : List Byte) (w n : Nat) : List Byte := p ++ leBytes w n

/-- One trial as a pure function: whether the double digest meets the target (R175). -/
def trialWins (p : List Byte) (w n : Nat) (t : List Byte) : Bool :=
  lessOrEqual (doubleDigest (candidate p w n)) t

/-- The search from nonce `n` with `left` further nonces after it (R176). -/
def searchFrom (p : List Byte) (w : Nat) (t : List Byte) : Nat → Nat → Option Nat
  | 0, n => if trialWins p w n t then some n else none
  | left + 1, n => if trialWins p w n t then some n else searchFrom p w t left (n + 1)

/-- Search (R176): the nonces 0 to 2^(8W) - 1 in ascending order; `none` is EXHAUSTED. -/
def searchResult (p : List Byte) (w : Nat) (t : List Byte) : Option Nat :=
  searchFrom p w t (2 ^ (8 * w) - 1) 0

end Sys2Proof.Machine
end

