-- ==== Sys2Proof/Machine/SearchHarness.lean ====
section
/-! DEFINITION. The meanings of the Search Harness's commands (spec 42_search.md R178 to R181), each the whole command at
one instant (R238). SEARCH is the loop of R181 over the hardware trial of R178. -/

namespace Sys2Proof.Machine

/-- What a trial on MSG gives (R178): MSG after the nonce was written, the candidate, the words of the second digest, the
comparison. -/
structure Trial where
  msg : Memory
  cand : List Byte
  hs : Words8
  le : Bool
  deriving DecidableEq, Repr

/-- `Trial(PLEN, W, n)` on MSG (R178); `none` where the engine reads an unwritten byte (R62). -/
def runTrial (target : Words8) (plen w n : Nat) (msg : Memory) : Option Trial :=
  let msg' := msg.writeBytes plen (leBytes w n)
  match msg'.readBytes 0 (plen + w) with
  | none => none
  | some m =>
    let hs := digestState (digest m)
    some ⟨msg', m, hs, lessOrEqual (wordsBytes hs) (wordsBytes target)⟩

/-- The loop of SEARCH (R181) from nonce `n`, `left` being 2^(8W) - 1 - n; the last trial and its nonce. The whole loop
is one step (R182, R238; log entry 9). -/
def searchLoop (target : Words8) (plen w : Nat) : Nat → Nat → Memory → Option (Nat × Trial)
  | 0, n, msg =>
    match runTrial target plen w n msg with
    | none => none
    | some t => some (n, t)
  | left + 1, n, msg =>
    match runTrial target plen w n msg with
    | none => none
    | some t => if t.le then some (n, t) else searchLoop target plen w left (n + 1) t.msg

/-- The internal state a trial of a candidate leaves (R32, R33). -/
def Internal.tried (i : Internal) (cand : List Byte) : Internal := { i.doubleDigested cand with phase := .compare }

/-- The internal state a SEARCH leaves whose last trial was at nonce `n` (R32). -/
def Internal.searched (i : Internal) (n : Nat) (cand : List Byte) : Internal :=
  { i.tried cand with trial := BitVec.ofNat 64 n }

/-- COMPARE (R179). -/
def execCompare (s : State) : Host.Outcome State Fault Refusal :=
  issue .compare s fun s =>
    .next { s with status := s.status.setLe (lessOrEqual (wordsBytes s.h) (wordsBytes s.target)) }

/-- TRY PLEN, W (R180). -/
def execTry (plen w : Nat) (s : State) : Host.Outcome State Fault Refusal :=
  issue (.tryNonce plen w) s fun s =>
    match runTrial s.target plen w s.nonce.toNat s.msg with
    | some t =>
      .next { s with
        msg := t.msg, h := t.hs, status := s.status.setLe t.le,
        internal := s.internal.tried t.cand }
    | none => .fault .unwrittenMessageByte

/-- SEARCH PLEN, W (R181). -/
def execSearch (plen w : Nat) (s : State) : Host.Outcome State Fault Refusal :=
  issue (.search plen w) s fun s =>
    match searchLoop s.target plen w (2 ^ (8 * w) - 1) 0 s.msg with
    | some (n, t) =>
      .next { s with
        msg := t.msg, h := t.hs, nonce := BitVec.ofNat 64 n, status := s.status.setSearchResult t.le,
        internal := s.internal.searched n t.cand }
    | none => .fault .unwrittenMessageByte

end Sys2Proof.Machine
end

