-- ==== Sys2Proof/Machine/Dispatch.lean ====
section
/-! DEFINITION. The dispatch: one arm per constructor of Instr (spec 30_encoding.md R85). -/

namespace Sys2Proof.Machine

def exec (i : Instr) (s : State) : Host.Outcome State Fault Refusal :=
  match i with
  | .nop => Sys2Proof.Machine.execNop s
  | .init => Sys2Proof.Machine.execInit s
  | .compress => Sys2Proof.Machine.execCompress s
  | .digest len => Sys2Proof.Machine.execDigest len s
  | .digest2 len => Sys2Proof.Machine.execDigest2 len s
  | .compare => Sys2Proof.Machine.execCompare s
  | .tryNonce plen w => Sys2Proof.Machine.execTry plen w s
  | .search plen w => Sys2Proof.Machine.execSearch plen w s
  | .reserved opc operand => Sys2Proof.Machine.execReserved opc operand s

end Sys2Proof.Machine
end

