-- ==== Sys2Proof/Machine/HostBus.lean ====
section
/-! DEFINITION. What a host access does (spec 20_memory.md R52 to R57, 70_reset_and_hazards.md R234 to R236) and the
taking of the next input. -/

namespace Sys2Proof.Machine

/-- The byte a host read of MSG sees while BUSY = 0: an unwritten byte is a free value, the `k`-th draw (R54, U4). -/
def State.hostByte (s : State) (a k : Nat) : Byte := (s.msg.read a).getD (Config.unwrittenByte (s.draws + k))

/-- What an accepted read returns while BUSY = 0 (R53, R54): a word of MSG is little-endian, a byte zero-extended. -/
def State.idleReadValue (s : State) (region : Region) (size : AccessSize) : Word :=
  match region, size with
  | .reg r, _ => s.readReg r
  | .msg a, .four => be32 (s.hostByte (a + 3) 3) (s.hostByte (a + 2) 2) (s.hostByte (a + 1) 1) (s.hostByte a 0)
  | .msg a, _ => (s.hostByte a 0).setWidth 32
  | .unmapped, _ => 0

/-- What an accepted read returns while BUSY = 1 (R235): STATUS its true BUSY, ERR and ERRCODE, any other offset a free
value (U1, U2). -/
def State.busyReadValue (s : State) (region : Region) (size : AccessSize) : Word :=
  match region, size with
  | .reg .status, _ => s.busyStatusWord
  | _, .four => Config.busyWord s.draws
  | _, _ => (Config.busyByte s.draws).setWidth 32

/-- An accepted read (R52): the host gets the value and nothing of the block changes (R57). Four draws are reserved, one
for each byte position. -/
def State.hostRead (s : State) (a : Access) : State :=
  let region := classify s.msgBytes a.off
  let value := if s.busy then s.busyReadValue region a.size else s.idleReadValue region a.size
  { s with readData := value, draws := s.draws + 4 }

/-- The bytes of a bus value in their order in MSG: byte `k` is bits [8k+7:8k] (R54). -/
def busBytes (v : Word) : List Byte :=
  [v.extractLsb' 0 8, v.extractLsb' 8 8, v.extractLsb' 16 8, v.extractLsb' 24 8]

/-- An accepted write to MSG (R54): one byte, the low byte of the bus value (R52), or four. -/
def State.writeMsg (s : State) (a : Nat) (size : AccessSize) (v : Word) : State :=
  match size with
  | .four =>
    { s with msg := s.msg.writeBytes a (busBytes v) }
  | _ => { s with msg := s.msg.write a (v.extractLsb' 0 8) }

/-- A CMD write that passed the access checks (R22, R89). With no input before the completion the whole command is this
one instant (R238); with `hold` inputs before it, the command is accepted and the engine is busy (R234). -/
def commandWrite (c : Word) (hold : Nat) (s : State) : Host.Outcome State Fault Refusal :=
  match decode c, hold with
  | .error .reservedBits, _ => .next (s.raise .reservedBits)
  | .ok i, 0 => exec i s
  | .ok i, hold + 1 =>
    match issueError s i with
    | some e => .next (s.raise e)
    | none => .next { s.accept i with eng := .busy i (hold + 1) }

/-- An access that fails a check (R55, R213): only the error record, and a read returns 0. -/
def State.refuseAccess (s : State) (a : Access) (e : CmdError) : State :=
  match a.kind with
  | .read => { s.raise e with readData := 0 }
  | .write => s.raise e

/-- One host access (R52). -/
def hostAccess (a : Access) (hold : Nat) (s : State) : Host.Outcome State Fault Refusal :=
  match accessError s a, a.kind, classify s.msgBytes a.off with
  | some e, _, _ => .next (s.refuseAccess a e)
  | none, .read, _ => .next (s.hostRead a)
  | none, .write, .reg .cmd => commandWrite a.data hold s
  | none, .write, .reg r => .next (s.writeReg a.data r)
  | none, .write, .msg x => .next (s.writeMsg x a.size a.data)
  | none, .write, .unmapped => .next s

/-- The next input happens (R20, R63); with none to come nothing happens (R225; log entry 1). -/
def takeInput (s : State) : Host.Outcome State Fault Refusal :=
  match s.inputs with
  | [] => .next s
  | .reset :: rest => .next { s.resetFrom with inputs := rest }
  | .access a hold :: rest => hostAccess a hold { s with inputs := rest }

/-- One step of the block. Idle, the next input happens. Busy, the engine completes its command once no further input
falls before the completion, in one event that also clears BUSY (R234); until then the inputs go on (DESIGN CHOICE, log
entry 2). -/
def advance (s : State) : Host.Outcome State Fault Refusal :=
  match s.eng with
  | .idle => takeInput s
  | .busy i 0 => exec i { s with eng := .idle }
  | .busy i (left + 1) => takeInput { s with eng := .busy i left }

/-- The bus write that issues the command word `w`: a 4-byte write at CMD, offset 0x000 (R91). -/
def cmdWriteAccess (w : Word) : Access := ⟨.write, 0x000, .four, w⟩

/-- The state in which the host is about to write the word `w` to CMD of an idle block. -/
def State.aboutToIssue (s : State) (w : Word) : State :=
  { s with eng := .idle, inputs := .access (cmdWriteAccess w) 0 :: s.inputs }

end Sys2Proof.Machine
end

