-- ==== Sys2Proof/Machine/Step.lean ====
section
/-! DEFINITION. One step of the block, and where a step finds its next command: a command is the word the host writes to
CMD (spec 10_state.md R35), so it is fetched from the inputs to come. -/

namespace Sys2Proof.Machine

/-- One step (`advance`). -/
def step (s : State) : Host.Outcome State Fault Refusal := advance s

/-- `s` with the command word `w` (of `nbits` bits, 0 above) as the next input, the engine idle (log entry 1). -/
def State.withFetchWord (s : State) (nbits w : Nat) : State :=
  s.aboutToIssue (BitVec.ofNat 32 (w % 2 ^ nbits))

end Sys2Proof.Machine
end

