-- ==== Sys2Proof/Safety.lean ====
section
/-! DEFINITION. The invariant of the block, which every step keeps, and what a safe run is. -/

namespace Sys2Proof.Machine

/-- Every listed index lies below `n`. -/
def Memory.below (mem : Memory) (n : Nat) : Bool := mem.all fun c => c.1 < n

/-- STATUS is consistent: FOUND and EXH are never both 1, ERRCODE is 0 while ERR = 0 and a code of the block while ERR = 1
(R23, R201 to R209). -/
def Status.consistent (st : Status) : Bool :=
  !(st.found && st.exh) && (if st.err then 1 ≤ st.errCode.toNat && st.errCode.toNat ≤ 9 else st.errCode == 0)

/-- CMD holds the word of a command, never a reserved opcode or a set reserved bit (R22, D28). -/
def legalCmd (c : Word) : Bool :=
  match decode c with
  | .ok (.reserved _ _) => false
  | .ok _ => true
  | .error _ => false

/-- A busy engine executes the command CMD holds, and that command passes its checks at issue (R22, R32, R89). -/
def State.engineLegal (s : State) : Bool :=
  match s.eng with
  | .idle => true
  | .busy i _ => i.wf && s.cmd == encode i && issueError s i == none

/-- The invariant: a legal MSG_BYTES (R9), MSG in canonical form and inside its size (R51), STATUS consistent (R23), CMD
legal (R22), the engine legal (R32). -/
def State.Inv (s : State) : Prop :=
  Config.legalMsgBytes s.msgBytes = true ∧ s.msg.wf = true ∧ s.msg.below s.msgBytes = true ∧
    s.status.consistent = true ∧ legalCmd s.cmd = true ∧ s.engineLegal = true

/-- Every byte of `MSG[0..n)` has been written, as R233 asks before a command that reads it. -/
def State.written (s : State) (n : Nat) : Bool := (s.msg.readBytes 0 n).isSome

/-- The bytes of MSG a command reads that nothing else writes first (R61, R233): `MSG[0..LEN)` or `MSG[0..PLEN)`. -/
def readsUpTo : Instr → Nat
  | .digest len | .digest2 len => len
  | .tryNonce plen _ | .search plen _ => plen
  | .nop | .init | .compress | .compare | .reserved _ _ => 0

/-- The host has written what the command reads (R233 items 1 and 2). -/
def State.ready (s : State) (i : Instr) : Bool := s.written (readsUpTo i)

/-- The state but for the internal state of the engine, which the host cannot see (R34, R224). -/
def State.visible (s : State) : State := { s with internal := Internal.reset }

/-- The state but for what host accesses alone leave behind: the internal state, the error record, the inputs to come,
the value the host last read and the draws. -/
def State.commandView (s : State) : State :=
  { s.visible with
    status := { s.status with err := false, errCode := 0 }
    inputs := []
    readData := 0
    draws := 0 }

/-- A function on states applied to the next state of an outcome. -/
def mapNext (f : State → State) : Host.Outcome State Fault Refusal → Host.Outcome State Fault Refusal
  | .next t => .next (f t)
  | .fault r => .fault r
  | .refused r => .refused r

/-- The part of MSG a command writes: the first index and the count (R61). -/
def storedField : Instr → Nat × Nat
  | .tryNonce plen w | .search plen w => (plen, w)
  | .nop | .init | .compress | .digest _ | .digest2 _ | .compare | .reserved _ _ => (0, 0)

/-- COMPRESS once for each block in order, BLOCK holding that block (R151): how a host digests block by block. -/
def compressBlocks : List Words16 → State → Host.Outcome State Fault Refusal
  | [], s => .next s
  | b :: bs, s =>
    match exec .compress { s with block := b } with
    | .next t => compressBlocks bs t
    | .fault r => .fault r
    | .refused r => .refused r

/-- A step that does not stop. -/
def State.stepSafe (s : State) : Prop := ∃ t, step s = .next t

end Sys2Proof.Machine
end

