-- ==== Sys2Proof/Certificates/Slice0/Obligations.lean ====
section
/-! DEFINITION. The statements for the provers, in the order of OBLIGATIONS.json. Each says which rule of spec/ it
formalises. -/

open Sys2Proof Sys2Proof.Machine

/-! ### Encoding -/

/-- O1. R81 to R86, R89: decoding the word of a well-formed command gives the command back, every operand included. -/
def Obligations.DecodeOfEncodeIsTheCommand : Prop :=
  ∀ i : Instr, i.wf = true → decode (encode i) = .ok i

/-- O2. R84, R87, R89: a word that decodes is the word of what it decodes to, which is well-formed; no bit is dropped. -/
def Obligations.DecodedWordIsTheEncoding : Prop :=
  ∀ (c : Word) (i : Instr), decode c = .ok i → i.wf = true ∧ encode i = c

/-- O3. The rows of spec/opcode_table.json by mask and match (R85): a word decodes to a command exactly where it matches
that command's row, and to a reserved opcode exactly where it matches one of the five reserved rows. -/
def Obligations.DecodeMatchesTheOpcodeTable : Prop :=
  ∀ c : Word,
    (decode c = .ok .nop ↔ c &&& 0xFFFFFFFF = 0x00000000) ∧
    (decode c = .ok .init ↔ c &&& 0xFFFFFFFF = 0x01000000) ∧
    (decode c = .ok .compress ↔ c &&& 0xFFFFFFFF = 0x02000000) ∧
    ((∃ len, decode c = .ok (.digest len)) ↔ c &&& 0xFFFF0000 = 0x03000000) ∧
    ((∃ len, decode c = .ok (.digest2 len)) ↔ c &&& 0xFFFF0000 = 0x04000000) ∧
    (decode c = .ok .compare ↔ c &&& 0xFFFFFFFF = 0x05000000) ∧
    ((∃ plen w, decode c = .ok (.tryNonce plen w)) ↔ c &&& 0xFFF00000 = 0x06000000) ∧
    ((∃ plen w, decode c = .ok (.search plen w)) ↔ c &&& 0xFFF00000 = 0x07000000) ∧
    ((∃ opc x, decode c = .ok (.reserved opc x)) ↔
      c &&& 0xF8000000 = 0x08000000 ∨ c &&& 0xF0000000 = 0x10000000 ∨ c &&& 0xE0000000 = 0x20000000 ∨
      c &&& 0xC0000000 = 0x40000000 ∨ c &&& 0x80000000 = 0x80000000)

/-- O4. Words written out from R90 and from the decode vectors V-DEC decode to the commands they stand for. -/
def Obligations.SpecWordsDecode : Prop :=
  decode 0x00000000 = .ok .nop ∧ decode 0x01000000 = .ok .init ∧ decode 0x02000000 = .ok .compress ∧
    decode 0x03001000 = .ok (.digest 4096) ∧ decode 0x04000051 = .ok (.digest2 81) ∧ decode 0x05000000 = .ok .compare ∧
    decode 0x06010FFF = .ok (.tryNonce 4095 1) ∧ decode 0x0704004C = .ok (.search 76 4) ∧
    decode 0x08FFFFFF = .ok (.reserved 0x08 0xFFFFFF) ∧ decode 0x07F00000 = .error .reservedBits

/-! ### The step and the issue of a command -/

/-- O5. R22, R35, R89, R234, R238: where the host writes a command's word to CMD of an idle block and nothing falls
before the completion, the step is that command's `exec` after the input is taken; the step that completes a busy engine
is `exec` of its command with the engine idle (log entry 2). -/
def Obligations.StepRunsTheCommand : Prop :=
  (∀ (s : State) (c : Word) (i : Instr) (rest : List Input), s.eng = .idle →
      s.inputs = .access (cmdWriteAccess c) 0 :: rest → decode c = .ok i →
      step s = exec i { s with inputs := rest }) ∧
  (∀ (s : State) (w : Nat) (i : Instr), decode (BitVec.ofNat 32 w) = .ok i →
      step (s.withFetchWord 32 w) = exec i { s with eng := .idle }) ∧
  (∀ (s : State) (i : Instr), s.eng = .busy i 0 → step s = exec i { s with eng := .idle })

/-- O6. R22, R89, R213, R234: a command whose completion comes after further inputs is accepted by its CMD write: CMD
holds its word, BUSY reads 1, nothing else changes. A command that fails a check at issue is not accepted, wherever its
completion would fall: its error is recorded and nothing else changes. The count of inputs is the model's (log entry 2). -/
def Obligations.AcceptedCommandIsBusy : Prop :=
  ∀ (s : State) (c : Word) (i : Instr) (hold : Nat) (rest : List Input), s.eng = .idle →
    s.inputs = .access (cmdWriteAccess c) hold :: rest → decode c = .ok i →
    (issueError s i = none → 0 < hold →
      ∃ t, step s = .next t ∧ t = { s with inputs := rest, cmd := c, eng := .busy i hold } ∧
        t.statusWord.getLsbD 0 = true) ∧
    (∀ e, issueError s i = some e →
      step s = .next { s with inputs := rest, status := s.status.record e.code })

/-- O7. R86, R201: a CMD write of a word with opcode 0x08 to 0xFF, whatever its other bits, records 0x01 and changes
nothing else. -/
def Obligations.ReservedOpcodeIsRefused : Prop :=
  ∀ (s : State) (c : Word) (hold : Nat) (rest : List Input), s.eng = .idle →
    s.inputs = .access (cmdWriteAccess c) hold :: rest → 0x08 ≤ (c.extractLsb' 24 8).toNat →
    step s = .next { s with inputs := rest, status := s.status.record 0x01 }

/-- O8. R86, R201: executed as the table's reserved row, a reserved opcode completes by recording 0x01 alone. -/
def Obligations.ReservedRowRecordsIllegalOpcode : Prop :=
  ∀ (s : State) (opc : BitVec 8) (operand : BitVec 24),
    exec (.reserved opc operand) s = .next { s with status := s.status.record 0x01 }

/-- O9. R87, R202: a CMD write of a defined opcode with a nonzero reserved operand bit records 0x02 and changes nothing
else. -/
def Obligations.ReservedBitsAreRefused : Prop :=
  ∀ (s : State) (c : Word) (hold : Nat) (rest : List Input), s.eng = .idle →
    s.inputs = .access (cmdWriteAccess c) hold :: rest →
    (((c.extractLsb' 24 8).toNat ∈ [0x00, 0x01, 0x02, 0x05] ∧ c.extractLsb' 0 24 ≠ 0) ∨
      ((c.extractLsb' 24 8).toNat ∈ [0x03, 0x04] ∧ c.extractLsb' 16 8 ≠ 0) ∨
      ((c.extractLsb' 24 8).toNat ∈ [0x06, 0x07] ∧ c.extractLsb' 20 4 ≠ 0)) →
    step s = .next { s with inputs := rest, status := s.status.record 0x02 }

/-- O10. R203 to R206 in the order of R211: the operand checks of DIGEST, DIGEST2, TRY and SEARCH, each recording its
code with no other effect; the range check on NONCE is TRY's alone. -/
def Obligations.BadOperandsAreRefused : Prop :=
  ∀ (s : State) (len plen w : Nat),
    (s.msgBytes < len →
      exec (.digest len) s = .next { s with status := s.status.record 0x03 } ∧
      exec (.digest2 len) s = .next { s with status := s.status.record 0x03 }) ∧
    (w = 0 ∨ 8 < w →
      exec (.tryNonce plen w) s = .next { s with status := s.status.record 0x04 } ∧
      exec (.search plen w) s = .next { s with status := s.status.record 0x04 }) ∧
    (1 ≤ w → w ≤ 8 → s.msgBytes < plen + w →
      exec (.tryNonce plen w) s = .next { s with status := s.status.record 0x05 } ∧
      exec (.search plen w) s = .next { s with status := s.status.record 0x05 }) ∧
    (1 ≤ w → w ≤ 8 → plen + w ≤ s.msgBytes → 2 ^ (8 * w) ≤ s.nonce.toNat →
      exec (.tryNonce plen w) s = .next { s with status := s.status.record 0x06 } ∧
      issueError s (.search plen w) = none)

/-! ### Host accesses -/

/-- O11. R52, R208 to R210: which access meets which error. Unmapped offsets (0x010..0x01F, 0x0A0..0x0FFF, past MSG) give
0x08; else a size of 2, a register access that is not 4 bytes at a multiple of 4, or a 4-byte MSG access off a multiple of
4 gives 0x09; else a write while busy to any offset but STATUS gives 0x07; else none. -/
def Obligations.AccessErrorsInOrder : Prop :=
  ∀ (s : State) (a : Access),
    let n := a.off.toNat
    let unmapped := (0x010 ≤ n ∧ n ≤ 0x01F) ∨ (0x0A0 ≤ n ∧ n ≤ 0x0FFF) ∨ 0x1000 + s.msgBytes ≤ n
    let illFormed := a.size = .two ∨ (n < 0x1000 ∧ (a.size ≠ .four ∨ n % 4 ≠ 0)) ∨
      (0x1000 ≤ n ∧ a.size = .four ∧ n % 4 ≠ 0)
    let refusedBusy := a.kind = .write ∧ s.busy = true ∧ ¬ (0x004 ≤ n ∧ n ≤ 0x007)
    accessError s a =
      if unmapped then some .badAddress
      else if illFormed then some .badAccess
      else if refusedBusy then some .busy
      else none

/-- O12. R55, R212, R213: an access that fails a check changes only the error record; a failed read returns 0. Idle or
busy alike (busy, the count of inputs before the completion, the model's own, goes down by one: log entry 2). -/
def Obligations.RefusedAccessChangesOnlyTheErrorRecord : Prop :=
  ∀ (s : State) (a : Access) (hold : Nat) (rest : List Input) (e : CmdError),
    s.inputs = .access a hold :: rest → accessError s a = some e →
    (s.eng = .idle →
      step s = .next { s with
        inputs := rest, status := s.status.record e.code
        readData := if a.kind = .read then 0 else s.readData }) ∧
    (∀ i left, s.eng = .busy i (left + 1) →
      step s = .next { s with
        inputs := rest, status := s.status.record e.code, eng := .busy i left
        readData := if a.kind = .read then 0 else s.readData })

/-- O13. R207, R236: while BUSY = 1 a well-formed write to a mapped offset other than STATUS is refused with 0x07 and has
no other effect (the count of inputs before the completion is the model's: log entry 2). -/
def Obligations.BusyWriteIsRefused : Prop :=
  ∀ (s : State) (off : BitVec 13) (size : AccessSize) (data : Word) (hold left : Nat) (i : Instr) (rest : List Input),
    s.eng = .busy i (left + 1) → s.inputs = .access ⟨.write, off, size, data⟩ hold :: rest →
    classify s.msgBytes off ≠ .unmapped → classify s.msgBytes off ≠ .reg .status →
    badlyFormed (classify s.msgBytes off) off size = false →
    step s = .next { s with inputs := rest, eng := .busy i left, status := s.status.record 0x07 }

/-- O14. R51, R54: an accepted 4-byte write at 0x1000 + a sets MSG[a+k] to data[8k+7:8k], k = 0..3, a 1-byte write sets
MSG[a] to data[7:0]; every other byte of MSG reads as before and nothing else changes. -/
def Obligations.MsgWriteStoresItsBytes : Prop :=
  ∀ (s : State) (a : Nat) (data : Word) (hold : Nat) (rest : List Input), s.eng = .idle → s.msgBytes ≤ 4096 →
    (a % 4 = 0 → a + 4 ≤ s.msgBytes →
      s.inputs = .access ⟨.write, BitVec.ofNat 13 (0x1000 + a), .four, data⟩ hold :: rest →
      ∃ t, step s = .next t ∧ t = { s with inputs := rest, msg := t.msg } ∧
        (∀ k, k < 4 → t.msg.read (a + k) = some (data.extractLsb' (8 * k) 8)) ∧
        (∀ b, b < a ∨ a + 4 ≤ b → t.msg.read b = s.msg.read b)) ∧
    (a < s.msgBytes →
      s.inputs = .access ⟨.write, BitVec.ofNat 13 (0x1000 + a), .one, data⟩ hold :: rest →
      ∃ t, step s = .next t ∧ t = { s with inputs := rest, msg := t.msg } ∧
        t.msg.read a = some (data.extractLsb' 0 8) ∧ (∀ b, b ≠ a → t.msg.read b = s.msg.read b))

/-- O15. R54, R59: while BUSY = 0 a 4-byte read at 0x1000 + a returns {MSG[a+3], MSG[a+2], MSG[a+1], MSG[a]} of written
bytes, whichever accesses wrote them, a 1-byte read the byte zero-extended; an unwritten byte leaves the other positions
of the word exact (U4). -/
def Obligations.MsgReadReturnsTheBytes : Prop :=
  ∀ (s : State) (a : Nat) (data : Word) (hold : Nat) (rest : List Input), s.eng = .idle → s.msgBytes ≤ 4096 →
    (a % 4 = 0 → a + 4 ≤ s.msgBytes →
      s.inputs = .access ⟨.read, BitVec.ofNat 13 (0x1000 + a), .four, data⟩ hold :: rest →
      ∃ t, step s = .next t ∧
        ∀ k b, k < 4 → s.msg.read (a + k) = some b → t.readData.extractLsb' (8 * k) 8 = b) ∧
    (∀ b, a < s.msgBytes → s.msg.read a = some b →
      s.inputs = .access ⟨.read, BitVec.ofNat 13 (0x1000 + a), .one, data⟩ hold :: rest →
      ∃ t, step s = .next t ∧ t.readData = b.setWidth 32)

/-- O16. R21, R52: each register lies at its offset of the register map, and `classify` gives it for any of its four byte
offsets. -/
def Obligations.RegistersLieAtTheirOffsets : Prop :=
  ∀ (msgBytes : Nat) (r : Reg) (k : Nat), k < 4 → classify msgBytes (BitVec.ofNat 13 (r.offset + k)) = .reg r

/-- O17. R24 to R28, R53: while BUSY = 0 a 4-byte write to NONCE_LO, NONCE_HI, H[i], BLOCK[i] or TARGET[i] sets that
register to the data; every other register, MSG and the engine stay as they were. -/
def Obligations.RegisterWriteSetsThatRegister : Prop :=
  ∀ (s : State) (r : Reg) (data : Word) (hold : Nat) (rest : List Input), s.eng = .idle → r ≠ .cmd → r ≠ .status →
    s.inputs = .access ⟨.write, BitVec.ofNat 13 r.offset, .four, data⟩ hold :: rest →
    ∃ t, step s = .next t ∧ t.readReg r = data ∧ (∀ r', r' ≠ r → t.readReg r' = s.readReg r') ∧ t.msg = s.msg ∧
      t.eng = .idle ∧ t.msgBytes = s.msgBytes ∧ t.inputs = rest ∧ t.readData = s.readData ∧ t.internal = s.internal

/-- O18. R22, R23, R53, R57: while BUSY = 0 a 4-byte read of any register returns its value and has no side effect on the
block: only the model's own read value (log entry 8) and draw counter (log entry 4) change. -/
def Obligations.RegisterReadReturnsItsValue : Prop :=
  ∀ (s : State) (r : Reg) (data : Word) (hold : Nat) (rest : List Input), s.eng = .idle →
    s.inputs = .access ⟨.read, BitVec.ofNat 13 r.offset, .four, data⟩ hold :: rest →
    ∃ t, step s = .next t ∧ t.readData = s.readReg r ∧
      t = { s with inputs := rest, readData := t.readData, draws := t.draws }

/-- O19. R23: the fields of the STATUS word, bit by bit; the reserved bits [7:5] and [31:16] read 0. -/
def Obligations.StatusWordFields : Prop :=
  ∀ s : State,
    (s.statusWord.getLsbD 0 = true ↔ s.eng ≠ .idle) ∧ s.statusWord.getLsbD 1 = s.status.err ∧
    s.statusWord.getLsbD 2 = s.status.le ∧ s.statusWord.getLsbD 3 = s.status.found ∧
    s.statusWord.getLsbD 4 = s.status.exh ∧ s.statusWord.extractLsb' 5 3 = 0 ∧
    s.statusWord.extractLsb' 8 8 = s.status.errCode ∧ s.statusWord.extractLsb' 16 16 = 0

/-- O20. R23, R214, R236: a STATUS write of v, idle or busy, clears ERR and ERRCODE where v[1] = 1 and does nothing else
to the block; every other bit of v is ignored. Busy, the count of inputs before the completion, the model's own, goes
down by one (log entry 2). -/
def Obligations.StatusWriteClearsTheError : Prop :=
  ∀ (s : State) (v : Word) (hold : Nat) (rest : List Input),
    s.inputs = .access ⟨.write, 0x004, .four, v⟩ hold :: rest →
    let st := if v.getLsbD 1 = true then { s.status with err := false, errCode := 0x00 } else s.status
    (s.eng = .idle → step s = .next { s with inputs := rest, status := st }) ∧
    (∀ i left, s.eng = .busy i (left + 1) →
      step s = .next { s with inputs := rest, status := st, eng := .busy i left })

/-- O21. R212, R213, R215: raising an error records its code where ERR = 0 and nothing where ERR = 1, and changes no other
state; of two errors the first code stays. -/
def Obligations.FirstErrorIsKept : Prop :=
  ∀ (s : State) (e e' : CmdError),
    (s.status.err = false → s.raise e = { s with status := { s.status with err := true, errCode := e.code } }) ∧
    (s.status.err = true → s.raise e = s) ∧ (s.raise e).raise e' = s.raise e

/-- O22. R57, R235: an accepted read, idle or busy, has no side effect on the block. Only the model's own fields change:
the value the host has read (log entry 8), the draw counter (log entry 4) and, busy, the count of inputs before the
completion, which goes down by one (log entry 2). -/
def Obligations.ReadsHaveNoSideEffect : Prop :=
  ∀ (s : State) (off : BitVec 13) (size : AccessSize) (data : Word) (hold : Nat) (rest : List Input),
    s.inputs = .access ⟨.read, off, size, data⟩ hold :: rest → accessError s ⟨.read, off, size, data⟩ = none →
    (s.eng = .idle →
      ∃ t, step s = .next t ∧ t = { s with inputs := rest, readData := t.readData, draws := t.draws }) ∧
    (∀ i left, s.eng = .busy i (left + 1) →
      ∃ t, step s = .next t ∧
        t = { s with inputs := rest, eng := .busy i left, readData := t.readData, draws := t.draws })

/-- O23. R235: a STATUS read while BUSY = 1 returns BUSY = 1, the true ERR and ERRCODE and reserved bits 0; it says nothing
of LE, FOUND and EXH. -/
def Obligations.BusyStatusReadIsTrueInBusyAndError : Prop :=
  ∀ (s : State) (data : Word) (hold left : Nat) (i : Instr) (rest : List Input), s.eng = .busy i (left + 1) →
    s.inputs = .access ⟨.read, 0x004, .four, data⟩ hold :: rest →
    ∃ t, step s = .next t ∧ t.readData.getLsbD 0 = true ∧ t.readData.getLsbD 1 = s.status.err ∧
      t.readData.extractLsb' 8 8 = s.status.errCode ∧ t.readData.extractLsb' 5 3 = 0 ∧
      t.readData.extractLsb' 16 16 = 0

/-! ### Reset and the invariant -/

/-- O24. R230, R231: RESET, idle or in the middle of a command, puts every host-visible register at its reset value, makes
every byte of MSG unwritten and the engine idle. -/
def Obligations.ResetInputGivesTheResetState : Prop :=
  ∀ (s : State) (rest : List Input), s.inputs = .reset :: rest → (∀ i, s.eng ≠ .busy i 0) →
    ∃ t, step s = .next t ∧ t.cmd = 0x00000000 ∧ t.statusWord = 0x00000000 ∧ t.nonce = 0 ∧
      t.h = #v[0x6a09e667, 0xbb67ae85, 0x3c6ef372, 0xa54ff53a, 0x510e527f, 0x9b05688c, 0x1f83d9ab, 0x5be0cd19] ∧
      (∀ i : Fin 16, t.block[i] = 0) ∧ (∀ i : Fin 8, t.target[i] = 0) ∧ (∀ a, t.msg.read a = none) ∧ t.eng = .idle ∧
      t.msgBytes = s.msgBytes ∧ t.inputs = rest

/-- O25. R9, R22, R23, R230: the state after reset meets the invariant, and so does the state RESET gives from any legal
MSG_BYTES. -/
def Obligations.ResetMeetsTheInvariant : Prop :=
  State.reset.Inv ∧ ∀ s : State, Config.legalMsgBytes s.msgBytes = true → s.resetFrom.Inv

/-- O26. R9, R22, R23, R32, R51: every step keeps the invariant: a legal MSG_BYTES, MSG in canonical form and inside its
size, FOUND AND EXH = 0, ERRCODE 0 exactly while ERR = 0 and a code of the block else, CMD a legal command word, and a
busy engine on a command that CMD holds and that passes its checks. -/
def Obligations.StepKeepsTheInvariant : Prop :=
  ∀ s t : State, s.Inv → step s = .next t → t.Inv

/-! ### The compression datapath -/

/-- O27. R102, R103: bit i of ROTR^n(x) is bit (i + n) mod 32 of x; bit i of SHR^n(x) is bit i + n of x, 0 past bit 31. -/
def Obligations.RotateAndShiftBits : Prop :=
  ∀ (x : Word) (n i : Nat), 0 < n → n < 32 → i < 32 →
    (rotr n x).getLsbD i = x.getLsbD ((i + n) % 32) ∧
    (shr n x).getLsbD i = if i + n < 32 then x.getLsbD (i + n) else false

/-- O28. R105, R106: each bit of Ch is y's where x's is 1 and z's where it is 0; each bit of Maj is the majority. -/
def Obligations.ChoiceAndMajorityBits : Prop :=
  ∀ (x y z : Word) (i : Nat), i < 32 →
    (ch x y z).getLsbD i = (if x.getLsbD i then y.getLsbD i else z.getLsbD i) ∧
    ((maj x y z).getLsbD i = true ↔
      2 ≤ (x.getLsbD i).toNat + (y.getLsbD i).toNat + (z.getLsbD i).toNat)

/-- O29. R107 to R110: the four sigma functions bit by bit, each rotation a bit index mod 32, the shifted term 0 in the
bits it vacates. -/
def Obligations.SigmaBits : Prop :=
  ∀ (x : Word) (i : Nat), i < 32 →
    let r := fun n => x.getLsbD ((i + n) % 32)
    let q := fun n => if i + n < 32 then x.getLsbD (i + n) else false
    (bigSigma0 x).getLsbD i = ((r 2).xor (r 13)).xor (r 22) ∧
    (bigSigma1 x).getLsbD i = ((r 6).xor (r 11)).xor (r 25) ∧
    (smallSigma0 x).getLsbD i = ((r 7).xor (r 18)).xor (q 3) ∧
    (smallSigma1 x).getLsbD i = ((r 17).xor (r 19)).xor (q 10)

/-- O30. R113: the schedule has 64 words; W[t] is the block's word t for t < 16, and
σ1(W[t-2]) + W[t-7] + σ0(W[t-15]) + W[t-16] mod 2^32 for t = 16..63. -/
def Obligations.ScheduleRecurrence : Prop :=
  ∀ m : Words16, (schedule m).length = 64 ∧
    (∀ t : Fin 16, (schedule m).getD t.val 0 = m[t]) ∧
    (∀ t, 16 ≤ t → t < 64 →
      (schedule m).getD t 0 =
        smallSigma1 ((schedule m).getD (t - 2) 0) + (schedule m).getD (t - 7) 0 +
          smallSigma0 ((schedule m).getD (t - 15) 0) + (schedule m).getD (t - 16) 0)

/-- O31. R114 to R117: Compress is the load of the working variables, exactly 64 rounds in order, round t with K[t] and
W[t] and all eight outputs from the round's inputs, and the word by word final addition. -/
def Obligations.CompressRunsSixtyFourRounds : Prop :=
  ∀ (hin : Words8) (m : Words16) (v : Nat → Vars),
    v 0 = ⟨hin[0], hin[1], hin[2], hin[3], hin[4], hin[5], hin[6], hin[7]⟩ →
    (∀ t, t < 64 → v (t + 1) =
      let x := v t
      let t1 := x.h + bigSigma1 x.e + ch x.e x.f x.g + roundConstants.getD t 0 + (schedule m).getD t 0
      let t2 := bigSigma0 x.a + maj x.a x.b x.c
      ⟨t1 + t2, x.a, x.b, x.c, x.d + t1, x.e, x.f, x.g⟩) →
    compress hin m = #v[hin[0] + (v 64).a, hin[1] + (v 64).b, hin[2] + (v 64).c, hin[3] + (v 64).d,
      hin[4] + (v 64).e, hin[5] + (v 64).f, hin[6] + (v 64).g, hin[7] + (v 64).h]

/-! ### The digest -/

/-- O32. R141: the padded message is the message, 0x80, k zero bytes and the bit length as 64 big-endian bits, with
0 <= k <= 63 the least k for which the bits before the length field are 448 mod 512; its length is a multiple of 64. -/
def Obligations.PaddingFillsWholeBlocks : Prop :=
  ∀ m : List Byte, ∃ k, k ≤ 63 ∧ pad m = m ++ [0x80] ++ List.replicate k 0x00 ++ be64bytes (8 * m.length) ∧
    8 * (m.length + 1 + k) % 512 = 448 ∧ (∀ j, j < k → 8 * (m.length + 1 + j) % 512 ≠ 448) ∧
    (pad m).length = m.length + 1 + k + 8 ∧ (pad m).length % 64 = 0

/-- O33. R142: a message of L bytes has floor((L + 8) / 64) + 1 blocks, the padded length over 64. -/
def Obligations.BlockCount : Prop :=
  ∀ m : List Byte, (messageBlocks m).length = (m.length + 8) / 64 + 1 ∧
    (messageBlocks m).length = (pad m).length / 64 ∧ (pad m).length % 64 = 0

/-- O34. R143: word i of block j is be32 of the padded bytes 64j + 4i to 64j + 4i + 3: byte 64j + 4i is its bits
[31:24]. -/
def Obligations.BlockWordsAreBigEndian : Prop :=
  ∀ (m : List Byte) (j : Nat) (hj : j < (messageBlocks m).length) (i : Fin 16),
    let p := fun k => (pad m).getD (64 * j + 4 * i.val + k) 0
    ((messageBlocks m)[j])[i] = be32 (p 0) (p 1) (p 2) (p 3) ∧
    (((messageBlocks m)[j])[i]).extractLsb' 24 8 = p 0

/-- O35. R8, R26, R145: a digest has 32 bytes, byte 4i + j being bits [31-8j:24-8j] of word i of the digest state. -/
def Obligations.DigestBytes : Prop :=
  (∀ m : List Byte, (digest m).length = 32 ∧ digest m = wordsBytes (digestState m)) ∧
  (∀ (h : Words8) (i : Fin 8) (j : Nat), j < 4 →
    (wordsBytes h).getD (4 * i.val + j) 0 = (h[i]).extractLsb' (24 - 8 * j) 8)

/-- O36. R147: the second digest is one compression from IV of the eight words of the first, 0x80000000, six zero words
and the bit length 0x100. -/
def Obligations.SecondDigestIsOneBlock : Prop :=
  ∀ m : List Byte,
    let x := digestState m
    doubleDigest m = wordsBytes (digestState (digest m)) ∧
    digestState (digest m) = compress initialChaining
      #v[x[0], x[1], x[2], x[3], x[4], x[5], x[6], x[7], 0x80000000, 0, 0, 0, 0, 0, 0, 0x00000100]

/-! ### The comparator and the search -/

/-- O37. R170, R171: N(b) is the sum of b[k] * 2^(8k); on 32-byte sequences the comparator is N(d) <= N(t), which the byte
procedure from byte 31 down to 0 decides, equality giving true. -/
def Obligations.ComparatorIsTheByteProcedure : Prop :=
  ∀ d t : List Byte, d.length = 32 → t.length = 32 →
    numberOf d = ((List.range 32).map fun k => (d.getD k 0).toNat * 2 ^ (8 * k)).sum ∧
    (lessOrEqual d t = true ↔ numberOf d ≤ numberOf t) ∧
    (lessOrEqual d t = true ↔
      d = t ∨ ∃ k, k < 32 ∧ (d.getD k 0).toNat < (t.getD k 0).toNat ∧
        ∀ j, k < j → j < 32 → d.getD j 0 = t.getD j 0)

/-- O38. R173: the nonce field has W bytes, byte k being (n >> 8k) AND 0xFF, and denotes the nonce. -/
def Obligations.NonceFieldDenotesTheNonce : Prop :=
  ∀ (w n : Nat), w ≤ 8 → n < 2 ^ (8 * w) →
    (leBytes w n).length = w ∧
    (∀ k, k < w → ((leBytes w n).getD k 0).toNat = (n >>> (8 * k)) &&& 0xFF) ∧
    numberOf (leBytes w n) = n

/-- O39. R176: the search finds n exactly where n is the least nonce of 0 .. 2^(8W) - 1 whose trial wins, and is exhausted
exactly where none wins. -/
def Obligations.SearchFindsTheLeastNonce : Prop :=
  ∀ (p : List Byte) (w : Nat) (t : List Byte),
    (∀ n, searchResult p w t = some n ↔
      n < 2 ^ (8 * w) ∧ lessOrEqual (doubleDigest (candidate p w n)) t = true ∧
        ∀ k, k < n → lessOrEqual (doubleDigest (candidate p w k)) t = false) ∧
    (searchResult p w t = none ↔
      ∀ n, n < 2 ^ (8 * w) → lessOrEqual (doubleDigest (candidate p w n)) t = false)

/-- O40. R178: a trial on MSG writes the nonce field alone, digests the prefix with the nonce, and gives what the pure
trial of R175 gives. -/
def Obligations.HardwareTrialIsThePureTrial : Prop :=
  ∀ (target : Words8) (plen w n : Nat) (msg : Memory) (p : List Byte), msg.readBytes 0 plen = some p →
    ∃ t, runTrial target plen w n msg = some t ∧ t.cand = p ++ leBytes w n ∧
      wordsBytes t.hs = doubleDigest (candidate p w n) ∧
      t.le = lessOrEqual (doubleDigest (candidate p w n)) (wordsBytes target) ∧
      t.msg.readBytes 0 plen = some p ∧ t.msg.readBytes plen w = some (leBytes w n) ∧
      ∀ a, a < plen ∨ plen + w ≤ a → t.msg.read a = msg.read a

/-! ### The commands -/

/-- O41. R22, R149: NOP changes nothing but CMD, which takes its word 0x00000000; a recorded error stays. -/
def Obligations.NopCompletes : Prop :=
  ∀ s : State, exec .nop s = .next { s with cmd := 0x00000000 }

/-- O42. R22, R112, R150: INIT sets H to IV and CMD to its word, and changes nothing else. -/
def Obligations.InitLoadsIv : Prop :=
  ∀ s : State, exec .init s = .next { s with
    cmd := 0x01000000
    h := #v[0x6a09e667, 0xbb67ae85, 0x3c6ef372, 0xa54ff53a, 0x510e527f, 0x9b05688c, 0x1f83d9ab, 0x5be0cd19] }

/-- O43. R22, R151: COMPRESS sets H to Compress(H, BLOCK), whatever H holds, and CMD to its word; nothing else the host can
see changes. -/
def Obligations.CompressCompletes : Prop :=
  ∀ s : State, ∃ t, exec .compress s = .next t ∧
    t.visible = { s with cmd := 0x02000000, h := compress s.h s.block }.visible

/-- O44. R22, R179: COMPARE sets LE to whether the number of H's bytes is at most that of TARGET's, and CMD to its word;
nothing else changes. -/
def Obligations.CompareSetsLe : Prop :=
  ∀ s : State, exec .compare s = .next { s with
    cmd := 0x05000000
    status := { s.status with le := decide (numberOf (wordsBytes s.h) ≤ numberOf (wordsBytes s.target)) } }

/-- O45. R22, R152: DIGEST LEN with LEN <= MSG_BYTES and MSG[0..LEN) written sets H to the digest state of that message
and CMD to its word; nothing else the host can see changes. -/
def Obligations.DigestCompletes : Prop :=
  ∀ (s : State) (len : Nat) (m : List Byte), len ≤ s.msgBytes → s.msg.readBytes 0 len = some m →
    ∃ t, exec (.digest len) s = .next t ∧
      t.visible = { s with cmd := encode (.digest len), h := digestState m }.visible

/-- O46. R22, R33, R153: DIGEST2 LEN with LEN <= MSG_BYTES and MSG[0..LEN) written sets H to the digest state of the
32-byte first digest and CMD to its word; nothing else the host can see changes. D1 then holds the first digest (the
model's reading of R33: log entry 7). -/
def Obligations.DigestTwiceCompletes : Prop :=
  ∀ (s : State) (len : Nat) (m : List Byte), len ≤ s.msgBytes → s.msg.readBytes 0 len = some m →
    ∃ t, exec (.digest2 len) s = .next t ∧ t.internal.d1.toList = digest m ∧
      t.visible = { s with cmd := encode (.digest2 len), h := digestState (digest m) }.visible

/-- O47. R22, R178, R180: TRY PLEN, W whose checks pass, on a written prefix P, writes the nonce field and H with the
double digest of P ++ le_bytes_W(NONCE), and LE with the comparison; every byte of MSG outside MSG[PLEN..PLEN+W) reads as
before, and nothing else the host can see changes (FOUND, EXH, NONCE, BLOCK and TARGET among it). -/
def Obligations.TryCompletes : Prop :=
  ∀ (s : State) (plen w : Nat) (p : List Byte), 1 ≤ w → w ≤ 8 → plen + w ≤ s.msgBytes →
    s.nonce.toNat < 2 ^ (8 * w) → s.msg.readBytes 0 plen = some p →
    let cand := p ++ leBytes w s.nonce.toNat
    ∃ t, exec (.tryNonce plen w) s = .next t ∧
      t.visible = { s with
        cmd := encode (.tryNonce plen w), msg := t.msg, h := digestState (digest cand)
        status := { s.status with
          le := decide (numberOf (doubleDigest cand) ≤ numberOf (wordsBytes s.target)) } }.visible ∧
      t.msg.readBytes plen w = some (leBytes w s.nonce.toNat) ∧
      ∀ a, a < plen ∨ plen + w ≤ a → t.msg.read a = s.msg.read a

/-- O48. R22, R176, R181: SEARCH PLEN, W whose checks pass, on a written prefix P, leaves the result of the reference
search. Found at n: NONCE = n, FOUND = LE = 1, EXH = 0. Exhausted: NONCE = 2^(8W) - 1, FOUND = LE = 0, EXH = 1. H is the
double digest at NONCE, the nonce field holds NONCE, every other byte of MSG reads as before, and nothing else the host
can see changes; NONCE's earlier value is not read. -/
def Obligations.SearchCompletes : Prop :=
  ∀ (s : State) (plen w : Nat) (p : List Byte), 1 ≤ w → w ≤ 8 → plen + w ≤ s.msgBytes →
    s.msg.readBytes 0 plen = some p →
    let r := searchResult p w (wordsBytes s.target)
    let n := r.getD (2 ^ (8 * w) - 1)
    ∃ t, exec (.search plen w) s = .next t ∧
      t.visible = { s with
        cmd := encode (.search plen w), msg := t.msg, nonce := BitVec.ofNat 64 n
        h := digestState (digest (p ++ leBytes w n))
        status := { s.status with le := r.isSome, found := r.isSome, exh := r.isNone } }.visible ∧
      t.nonce.toNat = n ∧ t.msg.readBytes plen w = some (leBytes w n) ∧
      ∀ a, a < plen ∨ plen + w ≤ a → t.msg.read a = s.msg.read a

/-- O49. R180 corner case: a TRY at the nonce a SEARCH found reproduces that SEARCH's H and MSG, and LE = 1. -/
def Obligations.TryReproducesTheSearch : Prop :=
  ∀ (s t u : State) (plen w : Nat), 1 ≤ w → w ≤ 8 → plen + w ≤ s.msgBytes → exec (.search plen w) s = .next t →
    t.status.found = true → exec (.tryNonce plen w) t = .next u →
    u.h = t.h ∧ u.msg = t.msg ∧ u.nonce = t.nonce ∧ u.status.le = true

/-- O50. R144, R150, R151, R152: the digest of a message is INIT and one COMPRESS for each block of the padded message in
order: the run of those commands leaves the H that DIGEST leaves. -/
def Obligations.DigestIsInitThenCompressEachBlock : Prop :=
  ∀ (s t : State) (len : Nat) (m : List Byte), len ≤ s.msgBytes → s.msg.readBytes 0 len = some m →
    exec (.digest len) s = .next t →
    ∃ s0, exec .init s = .next s0 ∧
      ∃ u, compressBlocks (messageBlocks m) s0 = .next u ∧ u.h = t.h

/-- O51. R62, U3: on operands that pass the checks at issue, DIGEST, DIGEST2, TRY and SEARCH stop with the fault exactly
where a byte they read has not been written; no other command stops. -/
def Obligations.OnlyUnwrittenBytesStopACommand : Prop :=
  ∀ (s : State) (i : Instr), issueError s i = none →
    (s.ready i = true ↔ ∃ t, exec i s = .next t) ∧
    (s.ready i = false ↔ exec i s = .fault .unwrittenMessageByte)

/-! ### Whole-machine rules -/

/-- O52. R27, R28, R61, R85: what no command changes: BLOCK, TARGET, every byte of MSG outside the nonce field of a TRY or
SEARCH, ERR and ERRCODE of an accepted command, the engine state, the parameter and the bus; NONCE, FOUND and EXH change
in SEARCH only, LE in COMPARE, TRY and SEARCH only, H not in NOP and COMPARE. A command refused at issue changes the error
record alone. -/
def Obligations.CommandFrame : Prop :=
  ∀ (i : Instr) (s t : State), exec i s = .next t →
    t.block = s.block ∧ t.target = s.target ∧ t.eng = s.eng ∧ t.msgBytes = s.msgBytes ∧ t.inputs = s.inputs ∧
    t.readData = s.readData ∧ t.draws = s.draws ∧
    (∀ a, a < (storedField i).1 ∨ (storedField i).1 + (storedField i).2 ≤ a → t.msg.read a = s.msg.read a) ∧
    ((∀ plen w, i ≠ .search plen w) →
      t.nonce = s.nonce ∧ t.status.found = s.status.found ∧ t.status.exh = s.status.exh) ∧
    ((∀ plen w, i ≠ .search plen w ∧ i ≠ .tryNonce plen w) →
      t.msg = s.msg ∧ (i ≠ .compare → t.status.le = s.status.le)) ∧
    (i = .nop ∨ i = .compare → t.h = s.h) ∧
    (∀ e, issueError s i = some e → t = { s with status := s.status.record e.code }) ∧
    (issueError s i = none → t.cmd = encode i ∧ t.status.err = s.status.err ∧ t.status.errCode = s.status.errCode)

/-- O53. R25, R152, R153, R180, R181 (and conflict C5): DIGEST, DIGEST2, TRY and SEARCH do not read the earlier H: on two
states that differ in H alone, with the checks at issue passed, they do the same. SEARCH does not read the earlier NONCE
either. -/
def Obligations.EarlierChainingStateIsNotRead : Prop :=
  ∀ (s : State) (h : Words8) (n : Nonce) (len plen w : Nat),
    (issueError s (.digest len) = none → exec (.digest len) { s with h := h } = exec (.digest len) s) ∧
    (issueError s (.digest2 len) = none → exec (.digest2 len) { s with h := h } = exec (.digest2 len) s) ∧
    (issueError s (.tryNonce plen w) = none → exec (.tryNonce plen w) { s with h := h } = exec (.tryNonce plen w) s) ∧
    (issueError s (.search plen w) = none →
      exec (.search plen w) { s with h := h, nonce := n } = exec (.search plen w) s)

/-- O54. R34: no step's result depends on internal state left over from an earlier command or from reset: with any other
internal state a step stops alike or gives a state alike in all but the internal state. -/
def Obligations.InternalStateIsNotObservable : Prop :=
  ∀ (s : State) (n : Internal),
    mapNext State.visible (step { s with internal := n }) = mapNext State.visible (step s)

/-- O55. R234, U6, R238: an accepted command completes: with no further input, a busy engine that waits for `left` inputs
has run its command after left + 1 steps (the count is the model's: log entry 2). -/
def Obligations.BusyCommandCompletes : Prop :=
  ∀ (s : State) (i : Instr) (left : Nat), s.eng = .busy i left → s.inputs = [] →
    Sys2Proof.core.run (left + 1) s = exec i { s with eng := .idle }

/-- O56. R234, R236, R238: atomic-command equivalence. A command issued to an idle block, with any host accesses at all
before its completion, gives in the end what it gives at one instant, in everything but the error record and what the
host has read; and it stops where it stops at one instant. The number of accesses before the completion is the model's
input (log entry 2). -/
def Obligations.CommandIsAtomic : Prop :=
  ∀ (s : State) (i : Instr) (accs : List (Access × Nat)), i.wf = true → s.eng = .idle → issueError s i = none →
    accs ≠ [] →
    s.inputs = .access (cmdWriteAccess (encode i)) accs.length :: accs.map (fun a => .access a.1 a.2) →
    mapNext State.commandView (Sys2Proof.core.run (accs.length + 2) s) = mapNext State.commandView (exec i s)
end

