-- ==== Sys2Proof/Laws/Decode.lean ====
section
/-! SUPPORT. The fields of a word as numbers, the words of the three formats as numbers, and the decoder opcode by opcode
(spec 30_encoding.md R80 to R89). -/

namespace Sys2Proof

/-- A field as a number. -/
theorem field_toNat (c : Word) (s n : Nat) : (c.extractLsb' s n).toNat = c.toNat / 2 ^ s % 2 ^ n := by
  simp [BitVec.extractLsb'_toNat, Nat.shiftRight_eq_div_pow]

theorem field_eq_zero (c : Word) (s n : Nat) : c.extractLsb' s n = 0 ↔ c.toNat / 2 ^ s % 2 ^ n = 0 := by
  rw [← field_toNat]
  exact ⟨fun h => by rw [h]; simp, fun h => BitVec.eq_of_toNat_eq (by simpa using h)⟩

/-- The opcode is the top byte (R80). -/
theorem opcodeOf_toNat (c : Word) : (opcodeOf c).toNat = c.toNat / 2 ^ 24 := by
  rw [opcodeOf, field_toNat]; have := c.isLt; omega

theorem encodeN_toNat (opc : BitVec 8) : (encodeN opc).toNat = opc.toNat * 2 ^ 24 := by
  simp only [encodeN, BitVec.toNat_append, BitVec.toNat_ofNat]
  rw [← Nat.shiftLeft_add_eq_or_of_lt (by omega), Nat.shiftLeft_eq]; omega

theorem encodeL_toNat (opc : BitVec 8) {len : Nat} (h : len < 2 ^ 16) :
    (encodeL opc len).toNat = opc.toNat * 2 ^ 24 + len := by
  simp only [encodeL, BitVec.toNat_append, BitVec.toNat_ofNat]
  rw [← Nat.shiftLeft_add_eq_or_of_lt (by omega), ← Nat.shiftLeft_add_eq_or_of_lt (by omega)]
  simp only [Nat.shiftLeft_eq]; omega

theorem encodeS_toNat (opc : BitVec 8) {plen w : Nat} (h : plen < 2 ^ 16) (hw : w < 2 ^ 4) :
    (encodeS opc plen w).toNat = opc.toNat * 2 ^ 24 + w * 2 ^ 16 + plen := by
  simp only [encodeS, BitVec.toNat_append, BitVec.toNat_ofNat]
  rw [← Nat.shiftLeft_add_eq_or_of_lt (by omega), ← Nat.shiftLeft_add_eq_or_of_lt (by omega),
    ← Nat.shiftLeft_add_eq_or_of_lt (by omega)]
  simp only [Nat.shiftLeft_eq]; omega

theorem reservedWord_toNat (opc : BitVec 8) (x : BitVec 24) : (opc ++ x : Word).toNat = opc.toNat * 2 ^ 24 + x.toNat := by
  rw [BitVec.toNat_append, ← Nat.shiftLeft_add_eq_or_of_lt (BitVec.isLt _), Nat.shiftLeft_eq]

theorem decode_nop {c : Word} (h : (opcodeOf c).toNat = 0x00) : decode c = decodeN c .nop := by
  simp only [decode, h]

theorem decode_init {c : Word} (h : (opcodeOf c).toNat = 0x01) : decode c = decodeN c .init := by
  simp only [decode, h]

theorem decode_compress {c : Word} (h : (opcodeOf c).toNat = 0x02) : decode c = decodeN c .compress := by
  simp only [decode, h]

theorem decode_digest {c : Word} (h : (opcodeOf c).toNat = 0x03) : decode c = decodeL c .digest := by
  simp only [decode, h]

theorem decode_digest2 {c : Word} (h : (opcodeOf c).toNat = 0x04) : decode c = decodeL c .digest2 := by
  simp only [decode, h]

theorem decode_compare {c : Word} (h : (opcodeOf c).toNat = 0x05) : decode c = decodeN c .compare := by
  simp only [decode, h]

theorem decode_tryNonce {c : Word} (h : (opcodeOf c).toNat = 0x06) : decode c = decodeS c .tryNonce := by
  simp only [decode, h]

theorem decode_search {c : Word} (h : (opcodeOf c).toNat = 0x07) : decode c = decodeS c .search := by
  simp only [decode, h]

theorem decode_reserved {c : Word} (h : 0x08 ≤ (opcodeOf c).toNat) :
    decode c = .ok (.reserved (opcodeOf c) (c.extractLsb' 0 24)) := by
  unfold decode
  split <;> first | rfl | (exfalso; omega)

/-- Everything the decoder can do, opcode by opcode (R89). -/
theorem decode_cases (c : Word) :
    ((opcodeOf c).toNat = 0x00 ∧ decode c = decodeN c .nop) ∨ ((opcodeOf c).toNat = 0x01 ∧ decode c = decodeN c .init) ∨
    ((opcodeOf c).toNat = 0x02 ∧ decode c = decodeN c .compress) ∨
    ((opcodeOf c).toNat = 0x03 ∧ decode c = decodeL c .digest) ∨
    ((opcodeOf c).toNat = 0x04 ∧ decode c = decodeL c .digest2) ∨
    ((opcodeOf c).toNat = 0x05 ∧ decode c = decodeN c .compare) ∨
    ((opcodeOf c).toNat = 0x06 ∧ decode c = decodeS c .tryNonce) ∨
    ((opcodeOf c).toNat = 0x07 ∧ decode c = decodeS c .search) ∨
    (0x08 ≤ (opcodeOf c).toNat ∧ decode c = .ok (.reserved (opcodeOf c) (c.extractLsb' 0 24))) := by
  by_cases h : 0x08 ≤ (opcodeOf c).toNat
  · simp [h, decode_reserved h]
  · have h8 : (opcodeOf c).toNat < 8 := by omega
    generalize hk : (opcodeOf c).toNat = k at h8
    interval_cases k
    · exact .inl ⟨rfl, decode_nop hk⟩
    · exact .inr (.inl ⟨rfl, decode_init hk⟩)
    · exact .inr (.inr (.inl ⟨rfl, decode_compress hk⟩))
    · exact .inr (.inr (.inr (.inl ⟨rfl, decode_digest hk⟩)))
    · exact .inr (.inr (.inr (.inr (.inl ⟨rfl, decode_digest2 hk⟩))))
    · exact .inr (.inr (.inr (.inr (.inr (.inl ⟨rfl, decode_compare hk⟩)))))
    · exact .inr (.inr (.inr (.inr (.inr (.inr (.inl ⟨rfl, decode_tryNonce hk⟩))))))
    · exact .inr (.inr (.inr (.inr (.inr (.inr (.inr (.inl ⟨rfl, decode_search hk⟩)))))))

end Sys2Proof
end

