-- ==== Sys2Proof/Laws/Hash.lean ====
section
/-! SUPPORT. The small laws of the byte conversions, the padding and the blocks (spec 00_scope.md R15, 41_digest.md R141
to R143). -/

namespace Sys2Proof.Machine

@[simp] theorem be32bytes_length (x : Word) : (be32bytes x).length = 4 := rfl

@[simp] theorem be64bytes_length (x : Nat) : (be64bytes x).length = 8 := rfl

@[simp] theorem leBytes_length (w n : Nat) : (leBytes w n).length = w := by
  induction w generalizing n with
  | zero => rfl
  | succ w ih => simp [leBytes, ih]

/-- The bytes of eight words, written out. -/
theorem wordsBytes_eq (h : Words8) :
    wordsBytes h = be32bytes h[0] ++ be32bytes h[1] ++ be32bytes h[2] ++ be32bytes h[3] ++ be32bytes h[4] ++
      be32bytes h[5] ++ be32bytes h[6] ++ be32bytes h[7] := by
  have : h.toList = [h[0], h[1], h[2], h[3], h[4], h[5], h[6], h[7]] := by
    apply List.ext_getElem
    · simp
    · intro i h1 h2
      simp only [List.length_cons, List.length_nil] at h2
      interval_cases i <;> simp
  simp [wordsBytes, this]

@[simp] theorem wordsBytes_length (h : Words8) : (wordsBytes h).length = 32 := by simp [wordsBytes_eq]

/-- `be32` as a number (R15). -/
theorem be32_toNat (b0 b1 b2 b3 : Byte) :
    (be32 b0 b1 b2 b3).toNat = b0.toNat * 2 ^ 24 + b1.toNat * 2 ^ 16 + b2.toNat * 2 ^ 8 + b3.toNat := by
  simp only [be32, BitVec.toNat_append]
  rw [← Nat.shiftLeft_add_eq_or_of_lt (BitVec.isLt _), ← Nat.shiftLeft_add_eq_or_of_lt (BitVec.isLt _),
    ← Nat.shiftLeft_add_eq_or_of_lt (BitVec.isLt _)]
  simp only [Nat.shiftLeft_eq]; omega

/-- `be32bytes` reads back what `be32` packs (R15). -/
theorem be32bytes_be32 (b0 b1 b2 b3 : Byte) : be32bytes (be32 b0 b1 b2 b3) = [b0, b1, b2, b3] := by
  have h0 := b0.isLt; have h1 := b1.isLt; have h2 := b2.isLt; have h3 := b3.isLt
  have hf : ∀ k, ((be32 b0 b1 b2 b3).extractLsb' k 8).toNat = (be32 b0 b1 b2 b3).toNat / 2 ^ k % 2 ^ 8 := by
    intro k; simp [BitVec.extractLsb'_toNat, Nat.shiftRight_eq_div_pow]
  simp only [be32bytes, List.cons.injEq, and_true]
  refine ⟨?_, ?_, ?_, ?_⟩ <;> apply BitVec.eq_of_toNat_eq <;> rw [hf, be32_toNat] <;> omega

/-- `be32` packs what `be32bytes` writes (R15). -/
theorem be32_of_be32bytes (x : Word) :
    be32 (x.extractLsb' 24 8) (x.extractLsb' 16 8) (x.extractLsb' 8 8) (x.extractLsb' 0 8) = x := by
  apply BitVec.eq_of_toNat_eq
  rw [be32_toNat]
  simp only [BitVec.extractLsb'_toNat, Nat.shiftRight_eq_div_pow]
  have := x.isLt; omega

/-- The first `n` entries of a list of `n` are that list. -/
@[simp] theorem firstOf_toList {α : Type} (d : α) (l : List α) : (firstOf l.length d l).toList = l := by
  apply List.ext_getElem
  · simp [firstOf]
  · intro i h1 h2; simp [firstOf]

theorem firstOf_toList_of_length {α : Type} {n : Nat} {l : List α} (h : l.length = n) (d : α) :
    (firstOf n d l).toList = l := by subst h; simp

@[simp] theorem firstOf_getElem {α : Type} {n : Nat} (d : α) (l : List α) (i : Nat) (h : i < n) :
    (firstOf n d l)[i] = l.getD i d := by simp [firstOf]

/-- The number of zero bytes is below 64 and fills the last block up to its length field (R141). -/
theorem zeroBytes_spec (len : Nat) : zeroBytes len < 64 ∧ (len + 1 + zeroBytes len) % 64 = 56 := by
  unfold zeroBytes; omega

theorem pad_length (m : List Byte) : (pad m).length = m.length + 1 + zeroBytes m.length + 8 := by
  simp [pad]; omega

/-- Four bytes make a word. -/
theorem beWords_length (p : List Byte) : (beWords p).length = p.length / 4 := by
  induction p using beWords.induct with
  | case1 a b c d rest ih => simp [beWords, ih]; omega
  | case2 l h =>
    match l, h with
    | [], _ => rfl
    | [_], _ => simp [beWords]
    | [_, _], _ => simp [beWords]
    | [_, _, _], _ => simp [beWords]
    | _ :: _ :: _ :: _ :: _, h => exact absurd rfl (h _ _ _ _ _)

/-- Word `k` is `be32` of the four bytes from `4k` (R143). -/
theorem beWords_getD (p : List Byte) (k : Nat) (h : 4 * k + 4 ≤ p.length) :
    (beWords p).getD k 0 = be32 (p.getD (4 * k) 0) (p.getD (4 * k + 1) 0) (p.getD (4 * k + 2) 0) (p.getD (4 * k + 3) 0) := by
  induction p using beWords.induct generalizing k with
  | case1 a b c d rest ih =>
    cases k with
    | zero => simp [beWords]
    | succ k =>
      have := ih k (by simp at h; omega)
      simp only [beWords, List.getD_cons_succ, this, show 4 * (k + 1) = 4 * k + 4 by omega,
        show 4 * k + 4 + 1 = 4 * k + 1 + 4 by omega, show 4 * k + 4 + 2 = 4 * k + 2 + 4 by omega,
        show 4 * k + 4 + 3 = 4 * k + 3 + 4 by omega]
  | case2 l hl =>
    match l, hl with
    | _ :: _ :: _ :: _ :: _, hl => exact absurd rfl (hl _ _ _ _ _)
    | [], _ => simp at h
    | [_], _ => simp at h
    | [_, _], _ => simp at h
    | [_, _, _], _ => simp at h

@[simp] theorem cutBlocks_length (n : Nat) (ws : List Word) : (cutBlocks n ws).length = n := by
  induction n generalizing ws with
  | zero => rfl
  | succ n ih => simp [cutBlocks, ih]

/-- Word `i` of block `j` is word `16j + i` (R143). -/
theorem cutBlocks_getElem (n : Nat) (ws : List Word) (j : Nat) (hj : j < (cutBlocks n ws).length) (i : Nat) (hi : i < 16) :
    ((cutBlocks n ws)[j])[i] = ws.getD (16 * j + i) 0 := by
  induction n generalizing ws j with
  | zero => simp at hj
  | succ n ih =>
    cases j with
    | zero => simp [cutBlocks, blockOf]
    | succ j =>
      have := ih (ws.drop 16) j (by simpa [cutBlocks] using hj)
      simp only [cutBlocks, List.getElem_cons_succ, this]
      simp [List.getD_eq_getElem?_getD, List.getElem?_drop, show 16 + (16 * j + i) = 16 * (j + 1) + i by omega]

end Sys2Proof.Machine
end

