-- ==== Sys2Proof/Laws/Memory.lean ====
section
/-! SUPPORT. The laws of MSG: a read after a write, that a write keeps the canonical form and the bound, and the same for
runs of bytes (spec 20_memory.md R51, R54, R61). -/

namespace Sys2Proof.Machine

/-! ### One byte -/

@[simp] theorem Memory.read_nil (a : Nat) : Memory.read [] a = none := rfl

/-- A read gives what the last write to that index put there. -/
@[simp] theorem Memory.read_write_same (mem : Memory) (a : Nat) (b : Byte) : (mem.write a b).read a = some b := by
  induction mem with
  | nil => simp [write, read]
  | cons c rest ih =>
    simp only [write]
    split
    · simp [read]
    · split
      · simp [read]
      · rename_i h1 h2; simp [read, h2, ih]

/-- A write leaves every other index alone. -/
theorem Memory.read_write_other (mem : Memory) {a x : Nat} (b : Byte) (h : x ≠ a) :
    (mem.write a b).read x = mem.read x := by
  induction mem with
  | nil => simp [write, read, h]
  | cons c rest ih =>
    simp only [write]
    split
    · simp [read, h]
    · split
      · rename_i h1 h2; simp [read, h, ← h2]
      · simp [read, ih]

/-- Writing what a write has just put there changes nothing. -/
@[simp] theorem Memory.write_write_same (mem : Memory) (a : Nat) (b : Byte) :
    (mem.write a b).write a b = mem.write a b := by
  induction mem with
  | nil => simp [write]
  | cons c rest ih =>
    simp only [write]
    split
    · simp [write]
    · split
      · simp [write]
      · rename_i h1 h2; simp [write, h1, h2, ih]

/-- A byte that is in its place stays so when a higher index is written. -/
theorem Memory.write_fixed_of_higher (mem : Memory) {a x : Nat} (b c : Byte) (h : a < x) (hm : mem.write a b = mem) :
    (mem.write x c).write a b = mem.write x c := by
  induction mem with
  | nil => simp [write] at hm
  | cons d rest ih =>
    simp only [write] at hm
    split at hm
    · have := congrArg List.length hm; simp at this
    · split at hm
      · rename_i h1 h2
        have hne : ¬ x < d.1 := by omega
        have hne' : ¬ x = d.1 := by omega
        have hd : (a, b) = d := (List.cons.inj hm).1
        rw [show Memory.write (d :: rest) x c = d :: Memory.write rest x c by simp [write, hne, hne']]
        subst hd; simp [write]
      · rename_i h1 h2
        have hr := (List.cons.inj hm).2
        have hne : ¬ x < d.1 := by omega
        have hne' : ¬ x = d.1 := by omega
        rw [show Memory.write (d :: rest) x c = d :: Memory.write rest x c by simp [write, hne, hne']]
        simp [write, h1, h2, ih hr]

/-! ### The canonical form and the bound -/

theorem Memory.wf_cons {c : Host.Cell} {rest : Memory} (h : Memory.wf (c :: rest) = true) :
    Memory.wf rest = true ∧ ∀ d, rest.head? = some d → c.1 < d.1 := by
  cases rest with
  | nil => simp [wf]
  | cons d rest' => simp [wf] at h ⊢; exact ⟨h.2, h.1⟩

theorem Memory.wf_of_cons {c : Host.Cell} {rest : Memory} (hr : Memory.wf rest = true)
    (h : ∀ d, rest.head? = some d → c.1 < d.1) : Memory.wf (c :: rest) = true := by
  cases rest with
  | nil => simp [wf]
  | cons d rest' => simp [wf] at h hr ⊢; exact ⟨h, hr⟩

/-- A write keeps the canonical form. -/
theorem Memory.write_wf (mem : Memory) (a : Nat) (b : Byte) (h : mem.wf = true) : (mem.write a b).wf = true := by
  induction mem with
  | nil => simp [write, wf]
  | cons c rest ih =>
    obtain ⟨hr, hc⟩ := Memory.wf_cons h
    simp only [write]
    split
    · rename_i h1; exact Memory.wf_of_cons h (by simp; exact h1)
    · split
      · rename_i h1 h2; exact Memory.wf_of_cons hr (by rw [h2]; exact hc)
      · rename_i h1 h2
        refine Memory.wf_of_cons (ih hr) ?_
        cases rest with
        | nil => simp [write]; omega
        | cons d rest' =>
          have hd := hc d rfl
          simp only [write]
          split
          · simp; omega
          · split <;> simp <;> omega

/-- A write below `n` keeps every index below `n`. -/
theorem Memory.write_below (mem : Memory) (a : Nat) (b : Byte) {n : Nat} (h : mem.below n = true) (ha : a < n) :
    (mem.write a b).below n = true := by
  induction mem with
  | nil => simp [write, below, ha]
  | cons c rest ih =>
    have hc : c.1 < n ∧ Memory.below rest n = true := by simpa [below] using h
    have hih : ∀ x ∈ Memory.write rest a b, x.1 < n := by simpa [below] using ih hc.2
    simp only [write]
    split
    · simp [below] at h ⊢; exact ⟨ha, h⟩
    · split
      · simp [below] at h ⊢; exact ⟨ha, h.2⟩
      · simp only [below, List.all_cons, Bool.and_eq_true, decide_eq_true_eq, List.all_eq_true]
        exact ⟨hc.1, hih⟩

/-! ### Runs of bytes -/

/-- Bytes written below or above an index leave it alone. -/
theorem Memory.read_writeBytes_outside (bs : List Byte) (mem : Memory) (a x : Nat) (h : x < a ∨ a + bs.length ≤ x) :
    (mem.writeBytes a bs).read x = mem.read x := by
  induction bs generalizing mem a with
  | nil => rfl
  | cons b bs ih =>
    simp only [List.length_cons] at h
    rw [writeBytes, ih _ _ (by omega), Memory.read_write_other _ _ (by omega)]

/-- The `k`-th byte written is read back. -/
theorem Memory.read_writeBytes_inside (bs : List Byte) (mem : Memory) (a k : Nat) (h : k < bs.length) :
    (mem.writeBytes a bs).read (a + k) = some bs[k] := by
  induction bs generalizing mem a k with
  | nil => simp at h
  | cons b bs ih =>
    cases k with
    | zero => rw [writeBytes, Memory.read_writeBytes_outside _ _ _ _ (by omega)]; simp
    | succ k =>
      have := ih (mem.write a b) (a + 1) k (by simpa using h)
      rw [writeBytes, show a + (k + 1) = a + 1 + k by omega, this]; rfl

theorem Memory.writeBytes_wf (bs : List Byte) (mem : Memory) (a : Nat) (h : mem.wf = true) :
    (mem.writeBytes a bs).wf = true := by
  induction bs generalizing mem a with
  | nil => exact h
  | cons b bs ih => exact ih _ _ (Memory.write_wf _ _ _ h)

theorem Memory.writeBytes_below (bs : List Byte) (mem : Memory) (a : Nat) {n : Nat} (h : mem.below n = true)
    (ha : a + bs.length ≤ n) : (mem.writeBytes a bs).below n = true := by
  induction bs generalizing mem a with
  | nil => exact h
  | cons b bs ih =>
    simp only [List.length_cons] at ha
    exact ih _ _ (Memory.write_below _ _ _ h (by omega)) (by omega)

theorem Memory.writeBytes_fixed_of_higher (bs : List Byte) (mem : Memory) {a x : Nat} (b : Byte) (h : a < x)
    (hm : mem.write a b = mem) : (mem.writeBytes x bs).write a b = mem.writeBytes x bs := by
  induction bs generalizing mem x with
  | nil => exact hm
  | cons c bs ih => exact ih _ (by omega) (Memory.write_fixed_of_higher _ _ _ h hm)

/-- Writing the same bytes again changes nothing. -/
theorem Memory.writeBytes_writeBytes_same (bs : List Byte) (mem : Memory) (a : Nat) :
    (mem.writeBytes a bs).writeBytes a bs = mem.writeBytes a bs := by
  induction bs generalizing mem a with
  | nil => rfl
  | cons b bs ih =>
    have h : (Memory.writeBytes (mem.write a b) (a + 1) bs).write a b = Memory.writeBytes (mem.write a b) (a + 1) bs :=
      Memory.writeBytes_fixed_of_higher _ _ _ (by omega) (Memory.write_write_same _ _ _)
    simp only [writeBytes]
    rw [h]; exact ih _ _

/-- A run of bytes depends on the bytes it reads alone. -/
theorem Memory.readBytes_congr (m1 m2 : Memory) (a n : Nat) (h : ∀ x, a ≤ x → x < a + n → m1.read x = m2.read x) :
    m1.readBytes a n = m2.readBytes a n := by
  induction n generalizing a with
  | zero => rfl
  | succ n ih =>
    rw [readBytes, readBytes, h a (by omega) (by omega), ih (a + 1) fun x h1 h2 => h x (by omega) (by omega)]

theorem Memory.readBytes_length {mem : Memory} {a n : Nat} {bs : List Byte} (h : mem.readBytes a n = some bs) :
    bs.length = n := by
  induction n generalizing a bs with
  | zero => simp [readBytes] at h; simp [← h]
  | succ n ih =>
    simp only [readBytes] at h
    split at h
    · rename_i b cs hb hc; cases h; simp [ih hc]
    · cases h

/-- A run of bytes is read in two parts. -/
theorem Memory.readBytes_add (mem : Memory) (a m n : Nat) :
    mem.readBytes a (m + n) = (mem.readBytes a m).bind fun p => (mem.readBytes (a + m) n).map (p ++ ·) := by
  induction m generalizing a with
  | zero => simp [readBytes, Option.map]; split <;> simp_all
  | succ m ih =>
    rw [show m + 1 + n = (m + n) + 1 by omega, readBytes, ih (a + 1), readBytes]
    rw [show a + 1 + m = a + (m + 1) by omega]
    cases mem.read a <;> cases mem.readBytes (a + 1) m <;> cases mem.readBytes (a + (m + 1)) n <;> simp

/-- The bytes just written are read back. -/
@[simp] theorem Memory.readBytes_writeBytes_same (bs : List Byte) (mem : Memory) (a : Nat) :
    (mem.writeBytes a bs).readBytes a bs.length = some bs := by
  induction bs generalizing mem a with
  | nil => rfl
  | cons b bs ih =>
    rw [List.length_cons, readBytes, writeBytes, ih, Memory.read_writeBytes_outside _ _ _ _ (by omega)]
    simp

/-- A run of bytes below the written ones is read as before. -/
theorem Memory.readBytes_writeBytes_below (bs : List Byte) (mem : Memory) (a n x : Nat) (h : x + n ≤ a) :
    (mem.writeBytes a bs).readBytes x n = mem.readBytes x n :=
  Memory.readBytes_congr _ _ _ _ fun y _ h2 => Memory.read_writeBytes_outside _ _ _ _ (by omega)

end Sys2Proof.Machine
end

