-- ==== Sys2Proof/Laws/Search.lean ====
section
/-! SUPPORT. What a trial and the loop of SEARCH can do (spec 42_search.md R178, R181). -/

namespace Sys2Proof.Machine

/-- The bytes a trial reads: the prefix as it was and the nonce field just written (R178). -/
theorem readBytes_candidate (msg : Memory) (plen w n : Nat) :
    (msg.writeBytes plen (leBytes w n)).readBytes 0 (plen + w) = (msg.readBytes 0 plen).map (· ++ leBytes w n) := by
  rw [Memory.readBytes_add, Memory.readBytes_writeBytes_below _ _ _ _ _ (by omega), Nat.zero_add]
  have h := Memory.readBytes_writeBytes_same (leBytes w n) msg plen
  rw [leBytes_length] at h
  rw [h]
  cases msg.readBytes 0 plen <;> rfl

/-- A trial on a written prefix, in full. -/
theorem runTrial_of_prefix (target : Words8) {plen : Nat} (w n : Nat) {msg : Memory} {p : List Byte}
    (hp : msg.readBytes 0 plen = some p) :
    runTrial target plen w n msg =
      some ⟨msg.writeBytes plen (leBytes w n), p ++ leBytes w n, digestState (digest (p ++ leBytes w n)),
        lessOrEqual (doubleDigest (candidate p w n)) (wordsBytes target)⟩ := by
  simp [runTrial, readBytes_candidate, hp, doubleDigest, digest, candidate]

/-- A trial stops exactly where a byte of the prefix is unwritten (R62). -/
theorem runTrial_eq_none_iff (target : Words8) (plen w n : Nat) (msg : Memory) :
    runTrial target plen w n msg = none ↔ msg.readBytes 0 plen = none := by
  cases hp : msg.readBytes 0 plen with
  | none => simp [runTrial, readBytes_candidate, hp]
  | some p => simp [runTrial_of_prefix _ _ _ hp]

/-- A trial writes the nonce field alone. -/
theorem runTrial_msg {target : Words8} {plen w n : Nat} {msg : Memory} {t : Trial}
    (h : runTrial target plen w n msg = some t) : t.msg = msg.writeBytes plen (leBytes w n) := by
  cases hp : msg.readBytes 0 plen with
  | none => rw [(runTrial_eq_none_iff _ _ _ _ _).2 hp] at h; cases h
  | some p => rw [runTrial_of_prefix _ _ _ hp] at h; cases h; rfl

/-- The loop of SEARCH keeps what every write of the nonce field keeps. -/
theorem searchLoop_keeps {target : Words8} {plen w : Nat} (P : Memory → Prop)
    (step : ∀ m n, P m → P (m.writeBytes plen (leBytes w n))) {left n n' : Nat} {msg : Memory} {t : Trial}
    (hm : P msg) (h : searchLoop target plen w left n msg = some (n', t)) : P t.msg := by
  induction left generalizing n msg with
  | zero =>
    simp only [searchLoop] at h
    split at h
    · cases h
    · rename_i hr; cases h; rw [runTrial_msg hr]; exact step _ _ hm
  | succ left ih =>
    simp only [searchLoop] at h
    split at h
    · cases h
    · rename_i u hr
      have hu : P u.msg := by rw [runTrial_msg hr]; exact step _ _ hm
      split at h
      · cases h; exact hu
      · exact ih hu h

/-- The prefix is read after a nonce write as before (R61). -/
theorem prefix_after_nonce {plen : Nat} (w n : Nat) {msg : Memory} {p : List Byte}
    (hp : msg.readBytes 0 plen = some p) : (msg.writeBytes plen (leBytes w n)).readBytes 0 plen = some p := by
  rw [Memory.readBytes_writeBytes_below _ _ _ _ _ (by omega)]; exact hp

/-- The loop of SEARCH stops exactly where a byte of the prefix is unwritten (R62). -/
theorem searchLoop_eq_none_iff (target : Words8) (plen w left n : Nat) (msg : Memory) :
    searchLoop target plen w left n msg = none ↔ msg.readBytes 0 plen = none := by
  cases hp : msg.readBytes 0 plen with
  | none =>
    have := (runTrial_eq_none_iff target plen w n msg).2 hp
    cases left <;> simp [searchLoop, this]
  | some p =>
    simp only [reduceCtorEq, iff_false]
    induction left generalizing n msg with
    | zero => simp [searchLoop, runTrial_of_prefix _ _ _ hp]
    | succ left ih =>
      simp only [searchLoop, runTrial_of_prefix _ _ _ hp]
      split
      · simp
      · exact ih _ _ (prefix_after_nonce w n hp)

/-- Two memories agree outside the nonce field. -/
def Memory.agreesOutside (m1 m2 : Memory) (plen w : Nat) : Prop :=
  ∀ a, a < plen ∨ plen + w ≤ a → m1.read a = m2.read a

/-- The nonce of the last trial a SEARCH makes (R181): the one found, else the last of the range. -/
def lastNonce (p : List Byte) (w : Nat) (target : Words8) : Nat :=
  (searchResult p w (wordsBytes target)).getD (2 ^ (8 * w) - 1)

/-- The loop of SEARCH on a written prefix is the search over pure trials (R177, R181): it ends at the nonce found or at
the last one, with that trial's candidate and digest. -/
theorem searchLoop_spec (target : Words8) (plen w left n : Nat) (msg : Memory) (p : List Byte)
    (hp : msg.readBytes 0 plen = some p) :
    ∃ m, Memory.agreesOutside m msg plen w ∧
      let r := searchFrom p w (wordsBytes target) left n
      let k := r.getD (n + left)
      searchLoop target plen w left n msg =
        some (k, ⟨m.writeBytes plen (leBytes w k), p ++ leBytes w k, digestState (digest (p ++ leBytes w k)), r.isSome⟩) := by
  induction left generalizing n msg with
  | zero =>
    refine ⟨msg, fun _ _ => rfl, ?_⟩
    by_cases h : lessOrEqual (doubleDigest (candidate p w n)) (wordsBytes target) = true <;>
      simp [searchLoop, runTrial_of_prefix target w n hp, searchFrom, trialWins, h]
  | succ left ih =>
    by_cases h : lessOrEqual (doubleDigest (candidate p w n)) (wordsBytes target) = true
    · exact ⟨msg, fun _ _ => rfl, by simp [searchLoop, runTrial_of_prefix target w n hp, searchFrom, trialWins, h]⟩
    · obtain ⟨m, h1, h2⟩ := ih (n + 1) _ (prefix_after_nonce w n hp)
      refine ⟨m, fun a ha => ?_, ?_⟩
      · rw [h1 a ha]; exact Memory.read_writeBytes_outside _ _ _ _ (by simpa using ha)
      · rw [show n + 1 + left = n + (left + 1) by omega] at h2
        simp only [searchLoop, runTrial_of_prefix target w n hp, searchFrom, trialWins, h, Bool.false_eq_true, if_false,
          h2]

end Sys2Proof.Machine
end

