-- ==== Sys2Proof/Laws/State.lean ====
section
/-! SUPPORT. One lemma per field per update of the state: what each shared update leaves in each field, true by
unfolding, so that no later proof unfolds an update. -/

namespace Sys2Proof.Machine

/-! ### Raising an error (R212) -/

@[simp] theorem State.raise_cmd (s : State) (e : CmdError) : (s.raise e).cmd = s.cmd := rfl
@[simp] theorem State.raise_status (s : State) (e : CmdError) : (s.raise e).status = s.status.record e.code := rfl
@[simp] theorem State.raise_nonce (s : State) (e : CmdError) : (s.raise e).nonce = s.nonce := rfl
@[simp] theorem State.raise_h (s : State) (e : CmdError) : (s.raise e).h = s.h := rfl
@[simp] theorem State.raise_block (s : State) (e : CmdError) : (s.raise e).block = s.block := rfl
@[simp] theorem State.raise_target (s : State) (e : CmdError) : (s.raise e).target = s.target := rfl
@[simp] theorem State.raise_msg (s : State) (e : CmdError) : (s.raise e).msg = s.msg := rfl
@[simp] theorem State.raise_eng (s : State) (e : CmdError) : (s.raise e).eng = s.eng := rfl
@[simp] theorem State.raise_internal (s : State) (e : CmdError) : (s.raise e).internal = s.internal := rfl
@[simp] theorem State.raise_msgBytes (s : State) (e : CmdError) : (s.raise e).msgBytes = s.msgBytes := rfl
@[simp] theorem State.raise_inputs (s : State) (e : CmdError) : (s.raise e).inputs = s.inputs := rfl
@[simp] theorem State.raise_readData (s : State) (e : CmdError) : (s.raise e).readData = s.readData := rfl
@[simp] theorem State.raise_draws (s : State) (e : CmdError) : (s.raise e).draws = s.draws := rfl

/-! ### Accepting a command (R22) -/

@[simp] theorem State.accept_cmd (s : State) (i : Instr) : (s.accept i).cmd = encode i := rfl
@[simp] theorem State.accept_status (s : State) (i : Instr) : (s.accept i).status = s.status := rfl
@[simp] theorem State.accept_nonce (s : State) (i : Instr) : (s.accept i).nonce = s.nonce := rfl
@[simp] theorem State.accept_h (s : State) (i : Instr) : (s.accept i).h = s.h := rfl
@[simp] theorem State.accept_block (s : State) (i : Instr) : (s.accept i).block = s.block := rfl
@[simp] theorem State.accept_target (s : State) (i : Instr) : (s.accept i).target = s.target := rfl
@[simp] theorem State.accept_msg (s : State) (i : Instr) : (s.accept i).msg = s.msg := rfl
@[simp] theorem State.accept_eng (s : State) (i : Instr) : (s.accept i).eng = s.eng := rfl
@[simp] theorem State.accept_internal (s : State) (i : Instr) : (s.accept i).internal = s.internal := rfl
@[simp] theorem State.accept_msgBytes (s : State) (i : Instr) : (s.accept i).msgBytes = s.msgBytes := rfl
@[simp] theorem State.accept_inputs (s : State) (i : Instr) : (s.accept i).inputs = s.inputs := rfl
@[simp] theorem State.accept_readData (s : State) (i : Instr) : (s.accept i).readData = s.readData := rfl
@[simp] theorem State.accept_draws (s : State) (i : Instr) : (s.accept i).draws = s.draws := rfl

/-! ### Forgetting the internal state -/

@[simp] theorem State.visible_cmd (s : State) : (s.visible).cmd = s.cmd := rfl
@[simp] theorem State.visible_status (s : State) : (s.visible).status = s.status := rfl
@[simp] theorem State.visible_nonce (s : State) : (s.visible).nonce = s.nonce := rfl
@[simp] theorem State.visible_h (s : State) : (s.visible).h = s.h := rfl
@[simp] theorem State.visible_block (s : State) : (s.visible).block = s.block := rfl
@[simp] theorem State.visible_target (s : State) : (s.visible).target = s.target := rfl
@[simp] theorem State.visible_msg (s : State) : (s.visible).msg = s.msg := rfl
@[simp] theorem State.visible_eng (s : State) : (s.visible).eng = s.eng := rfl
@[simp] theorem State.visible_internal (s : State) : (s.visible).internal = Internal.reset := rfl
@[simp] theorem State.visible_msgBytes (s : State) : (s.visible).msgBytes = s.msgBytes := rfl
@[simp] theorem State.visible_inputs (s : State) : (s.visible).inputs = s.inputs := rfl
@[simp] theorem State.visible_readData (s : State) : (s.visible).readData = s.readData := rfl
@[simp] theorem State.visible_draws (s : State) : (s.visible).draws = s.draws := rfl

/-! ### RESET (R230) -/

@[simp] theorem State.resetFrom_cmd (s : State) : (s.resetFrom).cmd = 0 := rfl
@[simp] theorem State.resetFrom_status (s : State) : (s.resetFrom).status = Status.reset := rfl
@[simp] theorem State.resetFrom_nonce (s : State) : (s.resetFrom).nonce = 0 := rfl
@[simp] theorem State.resetFrom_h (s : State) : (s.resetFrom).h = initialChaining := rfl
@[simp] theorem State.resetFrom_block (s : State) : (s.resetFrom).block = Vector.replicate 16 0 := rfl
@[simp] theorem State.resetFrom_target (s : State) : (s.resetFrom).target = Vector.replicate 8 0 := rfl
@[simp] theorem State.resetFrom_msg (s : State) : (s.resetFrom).msg = [] := rfl
@[simp] theorem State.resetFrom_eng (s : State) : (s.resetFrom).eng = .idle := rfl
@[simp] theorem State.resetFrom_internal (s : State) : (s.resetFrom).internal = Internal.reset := rfl
@[simp] theorem State.resetFrom_msgBytes (s : State) : (s.resetFrom).msgBytes = s.msgBytes := rfl
@[simp] theorem State.resetFrom_inputs (s : State) : (s.resetFrom).inputs = s.inputs := rfl
@[simp] theorem State.resetFrom_readData (s : State) : (s.resetFrom).readData = s.readData := rfl
@[simp] theorem State.resetFrom_draws (s : State) : (s.resetFrom).draws = s.draws := rfl

/-! ### An accepted read (R57) -/

@[simp] theorem State.hostRead_cmd (s : State) (a : Access) : (s.hostRead a).cmd = s.cmd := rfl
@[simp] theorem State.hostRead_status (s : State) (a : Access) : (s.hostRead a).status = s.status := rfl
@[simp] theorem State.hostRead_nonce (s : State) (a : Access) : (s.hostRead a).nonce = s.nonce := rfl
@[simp] theorem State.hostRead_h (s : State) (a : Access) : (s.hostRead a).h = s.h := rfl
@[simp] theorem State.hostRead_block (s : State) (a : Access) : (s.hostRead a).block = s.block := rfl
@[simp] theorem State.hostRead_target (s : State) (a : Access) : (s.hostRead a).target = s.target := rfl
@[simp] theorem State.hostRead_msg (s : State) (a : Access) : (s.hostRead a).msg = s.msg := rfl
@[simp] theorem State.hostRead_eng (s : State) (a : Access) : (s.hostRead a).eng = s.eng := rfl
@[simp] theorem State.hostRead_internal (s : State) (a : Access) : (s.hostRead a).internal = s.internal := rfl
@[simp] theorem State.hostRead_msgBytes (s : State) (a : Access) : (s.hostRead a).msgBytes = s.msgBytes := rfl
@[simp] theorem State.hostRead_inputs (s : State) (a : Access) : (s.hostRead a).inputs = s.inputs := rfl
@[simp] theorem State.hostRead_readData (s : State) (a : Access) : (s.hostRead a).readData = (if s.busy then s.busyReadValue (classify s.msgBytes a.off) a.size else s.idleReadValue (classify s.msgBytes a.off) a.size) := rfl
@[simp] theorem State.hostRead_draws (s : State) (a : Access) : (s.hostRead a).draws = s.draws + 4 := rfl

/-! ### The next command word -/

@[simp] theorem State.aboutToIssue_cmd (s : State) (w : Word) : (s.aboutToIssue w).cmd = s.cmd := rfl
@[simp] theorem State.aboutToIssue_status (s : State) (w : Word) : (s.aboutToIssue w).status = s.status := rfl
@[simp] theorem State.aboutToIssue_nonce (s : State) (w : Word) : (s.aboutToIssue w).nonce = s.nonce := rfl
@[simp] theorem State.aboutToIssue_h (s : State) (w : Word) : (s.aboutToIssue w).h = s.h := rfl
@[simp] theorem State.aboutToIssue_block (s : State) (w : Word) : (s.aboutToIssue w).block = s.block := rfl
@[simp] theorem State.aboutToIssue_target (s : State) (w : Word) : (s.aboutToIssue w).target = s.target := rfl
@[simp] theorem State.aboutToIssue_msg (s : State) (w : Word) : (s.aboutToIssue w).msg = s.msg := rfl
@[simp] theorem State.aboutToIssue_eng (s : State) (w : Word) : (s.aboutToIssue w).eng = .idle := rfl
@[simp] theorem State.aboutToIssue_internal (s : State) (w : Word) : (s.aboutToIssue w).internal = s.internal := rfl
@[simp] theorem State.aboutToIssue_msgBytes (s : State) (w : Word) : (s.aboutToIssue w).msgBytes = s.msgBytes := rfl
@[simp] theorem State.aboutToIssue_inputs (s : State) (w : Word) : (s.aboutToIssue w).inputs = .access (cmdWriteAccess w) 0 :: s.inputs := rfl
@[simp] theorem State.aboutToIssue_readData (s : State) (w : Word) : (s.aboutToIssue w).readData = s.readData := rfl
@[simp] theorem State.aboutToIssue_draws (s : State) (w : Word) : (s.aboutToIssue w).draws = s.draws := rfl

/-! ### The command's view -/

@[simp] theorem State.commandView_cmd (s : State) : (s.commandView).cmd = s.cmd := rfl
@[simp] theorem State.commandView_status (s : State) : (s.commandView).status = { s.status with err := false, errCode := 0 } := rfl
@[simp] theorem State.commandView_nonce (s : State) : (s.commandView).nonce = s.nonce := rfl
@[simp] theorem State.commandView_h (s : State) : (s.commandView).h = s.h := rfl
@[simp] theorem State.commandView_block (s : State) : (s.commandView).block = s.block := rfl
@[simp] theorem State.commandView_target (s : State) : (s.commandView).target = s.target := rfl
@[simp] theorem State.commandView_msg (s : State) : (s.commandView).msg = s.msg := rfl
@[simp] theorem State.commandView_eng (s : State) : (s.commandView).eng = s.eng := rfl
@[simp] theorem State.commandView_internal (s : State) : (s.commandView).internal = Internal.reset := rfl
@[simp] theorem State.commandView_msgBytes (s : State) : (s.commandView).msgBytes = s.msgBytes := rfl
@[simp] theorem State.commandView_inputs (s : State) : (s.commandView).inputs = [] := rfl
@[simp] theorem State.commandView_readData (s : State) : (s.commandView).readData = 0 := rfl
@[simp] theorem State.commandView_draws (s : State) : (s.commandView).draws = 0 := rfl

/-! ### STATUS -/

@[simp] theorem Status.setLe_err (st : Status) (b : Bool) : (st.setLe b).err = st.err := rfl
@[simp] theorem Status.setLe_le (st : Status) (b : Bool) : (st.setLe b).le = b := rfl
@[simp] theorem Status.setLe_found (st : Status) (b : Bool) : (st.setLe b).found = st.found := rfl
@[simp] theorem Status.setLe_exh (st : Status) (b : Bool) : (st.setLe b).exh = st.exh := rfl
@[simp] theorem Status.setLe_errCode (st : Status) (b : Bool) : (st.setLe b).errCode = st.errCode := rfl
@[simp] theorem Status.setSearchResult_err (st : Status) (b : Bool) : (st.setSearchResult b).err = st.err := rfl
@[simp] theorem Status.setSearchResult_le (st : Status) (b : Bool) : (st.setSearchResult b).le = b := rfl
@[simp] theorem Status.setSearchResult_found (st : Status) (b : Bool) : (st.setSearchResult b).found = b := rfl
@[simp] theorem Status.setSearchResult_exh (st : Status) (b : Bool) : (st.setSearchResult b).exh = !b := rfl
@[simp] theorem Status.setSearchResult_errCode (st : Status) (b : Bool) : (st.setSearchResult b).errCode = st.errCode := rfl
@[simp] theorem Status.clear_err (st : Status) : (st.clear).err = false := rfl
@[simp] theorem Status.clear_le (st : Status) : (st.clear).le = st.le := rfl
@[simp] theorem Status.clear_found (st : Status) : (st.clear).found = st.found := rfl
@[simp] theorem Status.clear_exh (st : Status) : (st.clear).exh = st.exh := rfl
@[simp] theorem Status.clear_errCode (st : Status) : (st.clear).errCode = 0 := rfl

theorem Status.record_of_err {st : Status} (h : st.err = true) (c : Byte) : st.record c = st := by simp [record, h]

theorem Status.record_of_no_err {st : Status} (h : st.err = false) (c : Byte) :
    st.record c = { st with err := true, errCode := c } := by simp [record, h]

@[simp] theorem Status.record_err (st : Status) (c : Byte) : (st.record c).err = true := by
  unfold record; split <;> simp_all

@[simp] theorem Status.record_le (st : Status) (c : Byte) : (st.record c).le = st.le := by
  unfold record; split <;> rfl

@[simp] theorem Status.record_found (st : Status) (c : Byte) : (st.record c).found = st.found := by
  unfold record; split <;> rfl

@[simp] theorem Status.record_exh (st : Status) (c : Byte) : (st.record c).exh = st.exh := by
  unfold record; split <;> rfl

/-! ### Register reads after a register write -/

@[simp] theorem nonceLo_nonceOf (hi lo : Word) : nonceLo (nonceOf hi lo) = lo :=
  BitVec.extractLsb'_append_eq_right

@[simp] theorem nonceHi_nonceOf (hi lo : Word) : nonceHi (nonceOf hi lo) = hi :=
  BitVec.extractLsb'_append_eq_left

/-- The two halves are the whole of NONCE (R24). -/
theorem nonceOf_halves (n : Nonce) : nonceOf (nonceHi n) (nonceLo n) = n := by
  apply BitVec.eq_of_toNat_eq
  simp only [nonceOf, nonceHi, nonceLo, BitVec.toNat_append, BitVec.extractLsb'_toNat]
  rw [← Nat.shiftLeft_add_eq_or_of_lt (by omega), Nat.shiftLeft_eq, Nat.shiftRight_eq_div_pow, Nat.shiftRight_eq_div_pow]
  have := n.isLt; omega

/-- Everything a STATUS write can do (R23, R214). -/
theorem State.writeStatus_cases (s : State) (v : Word) :
    s.writeStatus v = s ∨ s.writeStatus v = { s with status := s.status.clear } := by
  unfold writeStatus; split <;> simp

/-- Everything a plain register write can do: one of the registers, or nothing for CMD (R53). -/
theorem State.writeReg_keeps (s : State) (v : Word) (r : Reg) :
    (s.writeReg v r).msg = s.msg ∧ (s.writeReg v r).eng = s.eng ∧ (s.writeReg v r).msgBytes = s.msgBytes ∧
      (s.writeReg v r).inputs = s.inputs ∧ (s.writeReg v r).cmd = s.cmd ∧ (s.writeReg v r).internal = s.internal ∧
      (s.writeReg v r).readData = s.readData ∧ (s.writeReg v r).draws = s.draws ∧
      ((s.writeReg v r).status = s.status ∨ (s.writeReg v r).status = s.status.clear) := by
  cases r <;> simp [writeReg]
  rcases s.writeStatus_cases v with h | h <;> simp [h]

end Sys2Proof.Machine
end

