-- ==== Sys2Proof/Laws/Exec.lean ====
section
/-! SUPPORT. What the issue of a command and each meaning can do (spec 30_encoding.md R89, 60_exceptions.md R213). -/

namespace Sys2Proof.Machine

/-- Everything the issue of a command can do. -/
theorem issue_cases (i : Instr) (s : State) (f : State → Host.Outcome State Fault Refusal) :
    (∃ e, issueError s i = some e ∧ issue i s f = .next (s.raise e)) ∨
      (issueError s i = none ∧ issue i s f = f (s.accept i)) := by
  unfold issue; cases issueError s i <;> simp

theorem issue_of_error {i : Instr} {s : State} {e : CmdError} (h : issueError s i = some e)
    (f : State → Host.Outcome State Fault Refusal) : issue i s f = .next (s.raise e) := by simp [issue, h]

theorem issue_of_ok {i : Instr} {s : State} (h : issueError s i = none)
    (f : State → Host.Outcome State Fault Refusal) : issue i s f = f (s.accept i) := by simp [issue, h]

/-- A command that fails a check at issue records the error and does nothing else (R213). -/
theorem exec_of_error {i : Instr} {s : State} {e : CmdError} (h : issueError s i = some e) :
    exec i s = .next (s.raise e) := by
  cases i <;>
    simp only [exec, execNop, execInit, execCompress, execDigest, execDigest2, execCompare, execTry, execSearch,
      execReserved, issue_of_error h]

/-- NOP in full. -/
theorem exec_nop (s : State) : exec .nop s = .next (s.accept .nop) := rfl

/-- INIT in full. -/
theorem exec_init (s : State) : exec .init s = .next { s.accept .init with h := initialChaining } := by
  simp only [exec, execInit, issue_of_ok (show issueError s .init = none from rfl)]

/-- COMPRESS in full. -/
theorem exec_compress (s : State) :
    exec .compress s =
      .next { s.accept .compress with
        h := compress s.h s.block, internal := s.internal.compressed s.h s.block } := by
  simp only [exec, execCompress, issue_of_ok (show issueError s .compress = none from rfl), State.accept_h,
    State.accept_block, State.accept_internal]

/-- COMPARE in full. -/
theorem exec_compare (s : State) :
    exec .compare s =
      .next { s.accept .compare with
        status := s.status.setLe (lessOrEqual (wordsBytes s.h) (wordsBytes s.target)) } := by
  simp only [exec, execCompare, issue_of_ok (show issueError s .compare = none from rfl), State.accept_h,
    State.accept_target, State.accept_status]

/-- A reserved opcode in full. -/
theorem exec_reserved (opc : BitVec 8) (x : BitVec 24) (s : State) :
    exec (.reserved opc x) s = .next (s.raise .illegalOpcode) := exec_of_error rfl

/-- DIGEST on a written message. -/
theorem execDigest_of_message {s : State} {len : Nat} {m : List Byte} (h : issueError s (.digest len) = none)
    (hm : s.msg.readBytes 0 len = some m) :
    exec (.digest len) s =
      .next { s.accept (.digest len) with h := digestState m, internal := s.internal.digested m } := by
  simp [exec, execDigest, issue_of_ok h, hm]

/-- DIGEST2 on a written message. -/
theorem execDigest2_of_message {s : State} {len : Nat} {m : List Byte} (h : issueError s (.digest2 len) = none)
    (hm : s.msg.readBytes 0 len = some m) :
    exec (.digest2 len) s =
      .next { s.accept (.digest2 len) with
        h := digestState (digest m), internal := s.internal.doubleDigested m } := by
  simp [exec, execDigest2, issue_of_ok h, hm]

/-- TRY after its trial. -/
theorem execTry_of_trial {s : State} {plen w : Nat} {t : Trial} (h : issueError s (.tryNonce plen w) = none)
    (ht : runTrial s.target plen w s.nonce.toNat s.msg = some t) :
    exec (.tryNonce plen w) s =
      .next { s.accept (.tryNonce plen w) with
        msg := t.msg, h := t.hs, status := s.status.setLe t.le, internal := s.internal.tried t.cand } := by
  simp [exec, execTry, issue_of_ok h, ht]

/-- SEARCH after its loop. -/
theorem execSearch_of_loop {s : State} {plen w n : Nat} {t : Trial} (h : issueError s (.search plen w) = none)
    (ht : searchLoop s.target plen w (2 ^ (8 * w) - 1) 0 s.msg = some (n, t)) :
    exec (.search plen w) s =
      .next { s.accept (.search plen w) with
        msg := t.msg, h := t.hs, nonce := BitVec.ofNat 64 n, status := s.status.setSearchResult t.le,
        internal := s.internal.searched n t.cand } := by
  simp [exec, execSearch, issue_of_ok h, ht]

/-- SEARCH on a written prefix, in full. -/
theorem execSearch_of_prefix {s : State} {plen w : Nat} {p : List Byte} (h : issueError s (.search plen w) = none)
    (hp : s.msg.readBytes 0 plen = some p) :
    ∃ msg, Memory.agreesOutside msg s.msg plen w ∧
      exec (.search plen w) s =
        .next { s.accept (.search plen w) with
          msg := msg.writeBytes plen (leBytes w (lastNonce p w s.target))
          nonce := BitVec.ofNat 64 (lastNonce p w s.target)
          h := digestState (digest (p ++ leBytes w (lastNonce p w s.target)))
          status := s.status.setSearchResult (searchResult p w (wordsBytes s.target)).isSome
          internal := s.internal.searched (lastNonce p w s.target) (p ++ leBytes w (lastNonce p w s.target)) } := by
  obtain ⟨msg, hm, hl⟩ := searchLoop_spec s.target plen w (2 ^ (8 * w) - 1) 0 s.msg p hp
  refine ⟨msg, hm, ?_⟩
  rw [execSearch_of_loop h hl]
  simp only [Nat.zero_add, searchResult, lastNonce]

/-- Everything an accepted command can do: CMD holds its word; H and the internal state may change; STATUS stays or has
LE or the three result flags written; NONCE changes in a SEARCH alone; MSG is as it was or as writes of the nonce field
left it. -/
theorem exec_accepted_cases {i : Instr} {s t : State} (h : issueError s i = none) (ht : exec i s = .next t) :
    ∃ h' n st nonce msg, t = { s with cmd := encode i, h := h', internal := n, status := st, nonce := nonce, msg := msg } ∧
      ((st = s.status ∧ i ≠ .compare) ∨
        (∃ b, st = s.status.setLe b ∧ (i = .compare ∨ ∃ plen w, i = .tryNonce plen w)) ∨
        (∃ b, st = s.status.setSearchResult b ∧ ∃ plen w, i = .search plen w)) ∧
      (nonce = s.nonce ∨ ∃ plen w, i = .search plen w) ∧
      (i = .nop ∨ i = .compare → h' = s.h) ∧
      (msg = s.msg ∨ ∃ plen w, (i = .tryNonce plen w ∨ i = .search plen w) ∧
        ∀ P : Memory → Prop, (∀ m n, P m → P (m.writeBytes plen (leBytes w n))) → P s.msg → P msg) := by
  cases i with
  | nop =>
    simp only [exec, execNop, issue_of_ok h] at ht; cases ht
    exact ⟨s.h, s.internal, s.status, s.nonce, s.msg, rfl, by simp, by simp, by simp, by simp⟩
  | init =>
    simp only [exec, execInit, issue_of_ok h] at ht; cases ht
    exact ⟨_, s.internal, s.status, s.nonce, s.msg, rfl, by simp, by simp, by simp, by simp⟩
  | compress =>
    simp only [exec, execCompress, issue_of_ok h] at ht; cases ht
    exact ⟨_, _, s.status, s.nonce, s.msg, rfl, by simp, by simp, by simp, by simp⟩
  | digest len =>
    simp only [exec, execDigest, issue_of_ok h] at ht
    split at ht
    · cases ht; exact ⟨_, _, s.status, s.nonce, s.msg, rfl, by simp, by simp, by simp, by simp⟩
    · cases ht
  | digest2 len =>
    simp only [exec, execDigest2, issue_of_ok h] at ht
    split at ht
    · cases ht; exact ⟨_, _, s.status, s.nonce, s.msg, rfl, by simp, by simp, by simp, by simp⟩
    · cases ht
  | compare =>
    simp only [exec, execCompare, issue_of_ok h] at ht; cases ht
    exact ⟨s.h, s.internal, _, s.nonce, s.msg, rfl, .inr (.inl ⟨_, rfl, by simp⟩), by simp, by simp, by simp⟩
  | tryNonce plen w =>
    simp only [exec, execTry, issue_of_ok h] at ht
    split at ht
    · rename_i r hr
      cases ht
      refine ⟨_, _, _, s.nonce, _, rfl, .inr (.inl ⟨_, rfl, by simp⟩), by simp, by simp,
        .inr ⟨plen, w, by simp, fun P hP h0 => ?_⟩⟩
      rw [runTrial_msg hr]; exact hP _ _ h0
    · cases ht
  | search plen w =>
    simp only [exec, execSearch, issue_of_ok h] at ht
    split at ht
    · rename_i r hr
      cases ht
      exact ⟨_, _, _, _, _, rfl, .inr (.inr ⟨_, rfl, by simp⟩), by simp, by simp,
        .inr ⟨plen, w, by simp, fun P hP h0 => searchLoop_keeps P hP h0 hr⟩⟩
    · cases ht
  | reserved opc x => simp [issueError] at h

/-- No meaning is rejected by name. -/
theorem exec_not_refused (i : Instr) (s : State) (r : Refusal) : exec i s ≠ .refused r := by
  rcases hi : issueError s i with _ | e
  · cases i <;> simp only [exec, execNop, execInit, execCompress, execDigest, execDigest2, execCompare, execTry,
      execSearch, execReserved, issue_of_ok hi] <;> first | (split <;> simp) | simp
  · rw [exec_of_error hi]; simp

/-! ### The checks at issue -/

theorem lenError_eq_none_iff (msgBytes len : Nat) : lenError msgBytes len = none ↔ len ≤ msgBytes := by
  unfold lenError; split <;> simp <;> omega

theorem candidateError_eq_none_iff (msgBytes plen w : Nat) :
    candidateError msgBytes plen w = none ↔ 1 ≤ w ∧ w ≤ 8 ∧ plen + w ≤ msgBytes := by
  unfold candidateError Config.nonceWMax; split
  · simp; omega
  · split <;> simp <;> omega

theorem nonceError_eq_none_iff (nonce : Nonce) (w : Nat) : nonceError nonce w = none ↔ nonce.toNat < 2 ^ (8 * w) := by
  unfold nonceError; split <;> simp <;> omega

theorem issueError_tryNonce_eq_none_iff (s : State) (plen w : Nat) :
    issueError s (.tryNonce plen w) = none ↔
      (1 ≤ w ∧ w ≤ 8 ∧ plen + w ≤ s.msgBytes) ∧ s.nonce.toNat < 2 ^ (8 * w) := by
  rw [← candidateError_eq_none_iff, ← nonceError_eq_none_iff]
  simp [issueError]

/-- The checks at issue read MSG_BYTES and NONCE alone. -/
theorem issueError_congr {s t : State} (h1 : s.msgBytes = t.msgBytes) (h2 : s.nonce = t.nonce) (i : Instr) :
    issueError s i = issueError t i := by cases i <;> simp [issueError, h1, h2]

end Sys2Proof.Machine
end

