-- ==== Sys2Proof/Laws/PerInstr.lean ====
section
/-! SUPPORT. Statements made of each command as syntax, one lemma per constructor. `OpcodeField`: the top byte of a
command's word is the opcode the map of spec 30_encoding.md R85 gives it. -/

namespace Sys2Proof.Laws.OpcodeField

/-- OPC of the opcode map (R85). -/
def opcode : Instr → Nat
  | .nop => 0x00
  | .init => 0x01
  | .compress => 0x02
  | .digest _ => 0x03
  | .digest2 _ => 0x04
  | .compare => 0x05
  | .tryNonce _ _ => 0x06
  | .search _ _ => 0x07
  | .reserved opc _ => opc.toNat

/-- The word of a well-formed command carries its opcode in bits [31:24]. -/
def Statement (i : Instr) : Prop := i.wf = true → (opcodeOf (encode i)).toNat = opcode i

theorem format_l (opc : BitVec 8) {len : Nat} (h : Instr.lenFits len = true) :
    (opcodeOf (encodeL opc len)).toNat = opc.toNat := by
  simp only [Instr.lenFits, decide_eq_true_eq] at h
  rw [opcodeOf_toNat, encodeL_toNat _ (by omega)]; omega

theorem format_s (opc : BitVec 8) {plen w : Nat} (h : Instr.searchFits plen w = true) :
    (opcodeOf (encodeS opc plen w)).toNat = opc.toNat := by
  simp only [Instr.searchFits, Bool.and_eq_true, decide_eq_true_eq] at h
  rw [opcodeOf_toNat, encodeS_toNat _ (by omega) (by omega)]; omega

theorem nop : Statement .nop := fun _ => rfl

theorem init : Statement .init := fun _ => rfl

theorem compress : Statement .compress := fun _ => rfl

theorem digest (len : Nat) : Statement (.digest len) := fun h => format_l 0x03 h

theorem digest2 (len : Nat) : Statement (.digest2 len) := fun h => format_l 0x04 h

theorem compare : Statement .compare := fun _ => rfl

theorem tryNonce (plen w : Nat) : Statement (.tryNonce plen w) := fun h => format_s 0x06 h

theorem search (plen w : Nat) : Statement (.search plen w) := fun h => format_s 0x07 h

theorem reserved (opc : BitVec 8) (operand : BitVec 24) : Statement (.reserved opc operand) := by
  intro _
  simp only [encode, opcode]
  rw [opcodeOf_toNat, reservedWord_toNat]; omega

end Sys2Proof.Laws.OpcodeField
end

