-- ==== Sys2Proof/Laws/Step.lean ====
section
/-! SUPPORT. What a host access, an input and a step can do (spec 20_memory.md R52, 70_reset_and_hazards.md R234 to
R236). -/

namespace Sys2Proof.Machine

/-! ### Host accesses -/

@[simp] theorem classify_cmd (msgBytes : Nat) : classify msgBytes 0x000 = .reg .cmd := rfl

@[simp] theorem classify_status (msgBytes : Nat) : classify msgBytes 0x004 = .reg .status := rfl

/-- An offset of MSG lies in the window (R51). -/
theorem classify_eq_msg_iff (msgBytes : Nat) (off : BitVec 13) (a : Nat) :
    classify msgBytes off = .msg a ↔ off.toNat = 0x1000 + a ∧ a < msgBytes := by
  unfold classify
  simp only
  repeat' split
  all_goals simp
  all_goals omega

/-- The unmapped offsets (R21, R51). -/
theorem classify_eq_unmapped_iff (msgBytes : Nat) (off : BitVec 13) :
    classify msgBytes off = .unmapped ↔
      (0x010 ≤ off.toNat ∧ off.toNat ≤ 0x01F) ∨ (0x0A0 ≤ off.toNat ∧ off.toNat ≤ 0x0FFF) ∨
        0x1000 + msgBytes ≤ off.toNat := by
  unfold classify
  simp only
  repeat' split
  all_goals simp
  all_goals omega

/-- The four offsets of STATUS (R21). -/
theorem classify_eq_status_iff (msgBytes : Nat) (off : BitVec 13) :
    classify msgBytes off = .reg .status ↔ 0x004 ≤ off.toNat ∧ off.toNat ≤ 0x007 := by
  unfold classify
  simp only
  repeat' split
  all_goals simp
  all_goals omega

/-- The mapped offsets below the MSG window are those of the registers (R21). -/
theorem classify_reg_lt {msgBytes : Nat} {off : BitVec 13} {r : Reg} (h : classify msgBytes off = .reg r) :
    off.toNat < 0x1000 := by
  unfold classify at h
  simp only at h
  repeat' split at h
  all_goals first | omega | cases h

/-- A MSG index below MSG_BYTES is at its offset (R51). -/
theorem classify_msg {msgBytes a : Nat} (h : a < msgBytes) (hm : msgBytes ≤ 4096) :
    classify msgBytes (BitVec.ofNat 13 (0x1000 + a)) = .msg a := by
  rw [classify_eq_msg_iff]; exact ⟨by simp; omega, h⟩

theorem hostAccess_of_error {s : State} {a : Access} {e : CmdError} (h : accessError s a = some e) (hold : Nat) :
    hostAccess a hold s = .next (s.refuseAccess a e) := by simp [hostAccess, h]

theorem hostAccess_read {s : State} {a : Access} (h : accessError s a = none) (hk : a.kind = .read) (hold : Nat) :
    hostAccess a hold s = .next (s.hostRead a) := by simp [hostAccess, h, hk]

theorem hostAccess_cmd {s : State} {a : Access} (h : accessError s a = none) (hk : a.kind = .write)
    (hc : classify s.msgBytes a.off = .reg .cmd) (hold : Nat) :
    hostAccess a hold s = commandWrite a.data hold s := by simp [hostAccess, h, hk, hc]

theorem hostAccess_reg {s : State} {a : Access} {r : Reg} (h : accessError s a = none) (hk : a.kind = .write)
    (hc : classify s.msgBytes a.off = .reg r) (hr : r ≠ .cmd) (hold : Nat) :
    hostAccess a hold s = .next (s.writeReg a.data r) := by
  cases r <;> simp_all [hostAccess]

theorem hostAccess_msg {s : State} {a : Access} {x : Nat} (h : accessError s a = none) (hk : a.kind = .write)
    (hc : classify s.msgBytes a.off = .msg x) (hold : Nat) :
    hostAccess a hold s = .next (s.writeMsg x a.size a.data) := by simp [hostAccess, h, hk, hc]

/-- What an access without error must be (R52). -/
theorem accessError_eq_none_iff (s : State) (a : Access) :
    accessError s a = none ↔ classify s.msgBytes a.off ≠ .unmapped ∧
      badlyFormed (classify s.msgBytes a.off) a.off a.size = false ∧
      ¬ (a.kind = .write ∧ s.eng ≠ .idle ∧ classify s.msgBytes a.off ≠ .reg .status) := by
  unfold accessError
  simp only
  repeat' split
  all_goals simp_all

/-- Everything a host access can do (R52 to R54, R22): it is refused; it reads; it writes CMD; it writes another
register; it writes MSG inside its size. -/
theorem hostAccess_cases (a : Access) (hold : Nat) (s : State) :
    (∃ e, accessError s a = some e ∧ hostAccess a hold s = .next (s.refuseAccess a e)) ∨
    (accessError s a = none ∧ a.kind = .read ∧ hostAccess a hold s = .next (s.hostRead a)) ∨
    (accessError s a = none ∧ a.kind = .write ∧ s.eng = .idle ∧ hostAccess a hold s = commandWrite a.data hold s) ∨
    (∃ r, accessError s a = none ∧ a.kind = .write ∧ r ≠ .cmd ∧ (s.eng = .idle ∨ r = .status) ∧
      hostAccess a hold s = .next (s.writeReg a.data r)) ∨
    (∃ x, accessError s a = none ∧ a.kind = .write ∧ s.eng = .idle ∧ x < s.msgBytes ∧ (a.size = .four → x % 4 = 0) ∧
      hostAccess a hold s = .next (s.writeMsg x a.size a.data)) := by
  cases he : accessError s a with
  | some e => exact .inl ⟨e, rfl, hostAccess_of_error he hold⟩
  | none =>
    obtain ⟨h1, h2, h3⟩ := (accessError_eq_none_iff s a).1 he
    cases hk : a.kind with
    | read => exact .inr (.inl ⟨rfl, rfl, hostAccess_read he hk hold⟩)
    | write =>
      cases hc : classify s.msgBytes a.off with
      | unmapped => exact absurd hc h1
      | msg x =>
        have hi : s.eng = .idle := by by_contra hne; exact h3 ⟨hk, hne, by rw [hc]; simp⟩
        refine .inr (.inr (.inr (.inr ⟨x, rfl, rfl, hi, ((classify_eq_msg_iff _ _ _).1 hc).2, ?_,
          hostAccess_msg he hk hc hold⟩)))
        intro hs; rw [hc, hs] at h2; simpa [badlyFormed] using h2
      | reg r =>
        by_cases hr : r = .cmd
        · subst hr
          have hi : s.eng = .idle := by by_contra hne; exact h3 ⟨hk, hne, by rw [hc]; simp⟩
          exact .inr (.inr (.inl ⟨rfl, rfl, hi, hostAccess_cmd he hk hc hold⟩))
        · refine .inr (.inr (.inr (.inl ⟨r, rfl, rfl, hr, ?_, hostAccess_reg he hk hc hr hold⟩)))
          by_cases hst : r = .status
          · exact .inr hst
          · left; by_contra hne; exact h3 ⟨hk, hne, by rw [hc]; simpa using hst⟩

/-! ### The CMD write -/

/-- A CMD write to an idle block passes the access checks (R52). -/
theorem accessError_cmdWrite {s : State} (h : s.eng = .idle) (c : Word) : accessError s (cmdWriteAccess c) = none := by
  rw [accessError_eq_none_iff, show classify s.msgBytes (cmdWriteAccess c).off = .reg .cmd from rfl]
  exact ⟨by simp, rfl, by simp [h]⟩

theorem hostAccess_cmdWrite {s : State} (h : s.eng = .idle) (c : Word) (hold : Nat) :
    hostAccess (cmdWriteAccess c) hold s = commandWrite c hold s :=
  hostAccess_cmd (accessError_cmdWrite h c) rfl rfl hold

theorem commandWrite_rejected {c : Word} (h : decode c = .error .reservedBits) (hold : Nat) (s : State) :
    commandWrite c hold s = .next (s.raise .reservedBits) := by simp [commandWrite, h]

theorem commandWrite_now {c : Word} {i : Instr} (h : decode c = .ok i) (s : State) :
    commandWrite c 0 s = exec i s := by simp [commandWrite, h]

theorem commandWrite_error {c : Word} {i : Instr} {s : State} {e : CmdError} (h : decode c = .ok i)
    (he : issueError s i = some e) (hold : Nat) : commandWrite c hold s = .next (s.raise e) := by
  cases hold with
  | zero => rw [commandWrite_now h, exec_of_error he]
  | succ k => simp [commandWrite, h, he]

theorem commandWrite_held {c : Word} {i : Instr} {s : State} (h : decode c = .ok i) (he : issueError s i = none)
    (hold : Nat) : commandWrite c (hold + 1) s = .next { s.accept i with eng := .busy i (hold + 1) } := by
  simp [commandWrite, h, he]

/-- Everything a CMD write that passed the access checks can do (R22, R89). -/
theorem commandWrite_cases (c : Word) (hold : Nat) (s : State) :
    (∃ e, commandWrite c hold s = .next (s.raise e)) ∨
    (∃ i, decode c = .ok i ∧ issueError s i = none ∧ commandWrite c hold s = exec i s) ∨
    (∃ i, decode c = .ok i ∧ issueError s i = none ∧
      commandWrite c hold s = .next { s.accept i with eng := .busy i hold }) := by
  rcases hd : decode c with e | i
  · cases e; exact .inl ⟨_, commandWrite_rejected hd hold s⟩
  · rcases he : issueError s i with _ | e
    · cases hold with
      | zero => exact .inr (.inl ⟨i, rfl, he, commandWrite_now hd s⟩)
      | succ k => exact .inr (.inr ⟨i, rfl, he, commandWrite_held hd he k⟩)
    · exact .inl ⟨e, commandWrite_error hd he hold⟩

/-! ### The step -/

theorem step_idle {s : State} (h : s.eng = .idle) : step s = takeInput s := by simp [step, advance, h]

theorem step_complete {s : State} {i : Instr} (h : s.eng = .busy i 0) : step s = exec i { s with eng := .idle } := by
  simp [step, advance, h]

theorem step_busy {s : State} {i : Instr} {left : Nat} (h : s.eng = .busy i (left + 1)) :
    step s = takeInput { s with eng := .busy i left } := by simp [step, advance, h]

theorem takeInput_nil {s : State} (h : s.inputs = []) : takeInput s = .next s := by simp [takeInput, h]

theorem takeInput_reset {s : State} {rest : List Input} (h : s.inputs = .reset :: rest) :
    takeInput s = .next { s.resetFrom with inputs := rest } := by simp [takeInput, h]

theorem takeInput_access {s : State} {a : Access} {hold : Nat} {rest : List Input}
    (h : s.inputs = .access a hold :: rest) : takeInput s = hostAccess a hold { s with inputs := rest } := by
  simp [takeInput, h]

/-! ### Runs -/

/-- A run goes on from the next state. -/
theorem run_next {k : Nat} {s t : State} (h : step s = .next t) :
    Sys2Proof.core.run (k + 1) s = Sys2Proof.core.run k t := by
  have h' : Sys2Proof.core.step s = .next t := h
  simp only [Host.Core.run]
  rw [h']

/-- A run of one step is that step. -/
theorem run_one (s : State) : Sys2Proof.core.run 1 s = step s := by
  have h : Sys2Proof.core.step s = step s := rfl
  simp only [Host.Core.run]
  rw [h]
  cases step s <;> rfl

end Sys2Proof.Machine
end

