-- ==== Sys2Proof/Machine/HostNotation.lean ====
section
/-! DEFINITION. The host program notation (spec 30_encoding.md R91, R92): each host operation as the inputs it stands
for. The host's own control flow is outside the block; a WAIT is given by the number of polls it makes. -/

namespace Sys2Proof.Machine

/-- `WR32 off, v` (R91). Where it issues a command (`off` 0x000), `hold` further inputs fall before the completion; how
many is open (U6, U7). DESIGN CHOICE (log entry 2): the writer of the input gives it, and where none is given it is 0, so
that the command completes before the host's next access. -/
def wr32 (off : BitVec 13) (v : Word) (hold : Nat := 0) : Input := .access ⟨.write, off, .four, v⟩ hold

/-- `WR8 off, v` (R91). -/
def wr8 (off : BitVec 13) (v : Byte) : Input := .access ⟨.write, off, .one, v.setWidth 32⟩ 0

/-- `RD32 off` (R91). -/
def rd32 (off : BitVec 13) : Input := .access ⟨.read, off, .four, 0⟩ 0

/-- `RD8 off` (R91). -/
def rd8 (off : BitVec 13) : Input := .access ⟨.read, off, .one, 0⟩ 0

/-- A command line (R91): `WR32 0x000, <its encoding>`, completing after `hold` further inputs (log entry 2). -/
def commandLine (i : Instr) (hold : Nat) : Input := wr32 0x000 (encode i) hold

/-- `WAIT` (R92) of `polls` STATUS reads. -/
def waitPolls (polls : Nat) : List Input := List.replicate polls (rd32 0x004)

/-- The offset 0x1000 + `a` of MSG index `a` as the bus carries it, 13 bits (R11, R51). DESIGN CHOICE (log entry 17): the
spec is silent where 0x1000 + `a` passes 0x1FFF, and the model drops the higher bits, so that the offset wraps to 0x0000,
in the register region. -/
def msgOffset (a : Nat) : BitVec 13 := BitVec.ofNat 13 (0x1000 + a)

/-- `LOADMSG a, b` (R92); past offset 0x1FFF it wraps (`msgOffset`, log entry 17). -/
def loadMsg (a : Nat) (bytes : List Byte) : List Input :=
  bytes.mapIdx fun k b => wr8 (msgOffset (a + k)) b

/-- `LOADMSG32 a, v` (R92); past offset 0x1FFF it wraps (`msgOffset`, log entry 17). -/
def loadMsg32 (a : Nat) (v : Word) : Input := wr32 (msgOffset a) v

/-- 4-byte writes of words to consecutive registers from `base`. -/
def writeWords (base : Nat) (ws : List Word) : List Input :=
  ws.mapIdx fun k w => wr32 (BitVec.ofNat 13 (base + 4 * k)) w

/-- `SETTARGET t` (R92), `t` the 32 Target bytes in storage order. DESIGN CHOICE (log entry 17): a `t` of another length,
of which the spec says nothing, writes one word for each whole four bytes of it. -/
def setTarget (t : List Byte) : List Input := writeWords 0x080 (beWords t)

/-- `SETH h0, …, h7` (R92). -/
def setH (h : Words8) : List Input := writeWords 0x020 h.toList

/-- `SETBLOCK w0, …, w15` (R92). -/
def setBlock (m : Words16) : List Input := writeWords 0x040 m.toList

/-- `SETNONCE n` (R92). -/
def setNonce (n : Nonce) : List Input := [wr32 0x008 (n.extractLsb' 0 32), wr32 0x00C (n.extractLsb' 32 32)]

/-- `READH` (R92). -/
def readH : List Input := (List.range 8).map fun i => rd32 (BitVec.ofNat 13 (0x020 + 4 * i))

/-- `CLRERR` (R92). -/
def clrErr : Input := wr32 0x004 0x00000002

end Sys2Proof.Machine
end

