-- ==== Sys2Proof/Tests/Slice0.lean ====
section
/-! SUPPORT. The model's own tests. Expected results are the spec's examples and vectors (the rule or the vector is
named); each test runs one step or one command. The last part shows, for each obligation with hypotheses, concrete data
that meets them. -/

open Sys2Proof Sys2Proof.Machine

namespace Sys2Proof.Tests

/-! ### Helpers -/

/-- The next state of an outcome, where there is one. -/
def nextOf (o : Host.Outcome State Fault Refusal) : Option State :=
  match o with
  | .next t => some t
  | _ => none

/-- The fault of an outcome, where there is one. -/
def faultOf (o : Host.Outcome State Fault Refusal) : Option Fault :=
  match o with
  | .fault r => some r
  | _ => none

/-- Reset with bytes loaded at MSG[0]. -/
def loaded (bytes : List Byte) : State := { State.reset with msg := Memory.writeBytes [] 0 bytes }

/-- "hello" (R152). -/
def hello : List Byte := [0x68, 0x65, 0x6c, 0x6c, 0x6f]

/-- "tucker" (R174). -/
def tucker : List Byte := [0x74, 0x75, 0x63, 0x6b, 0x65, 0x72]

/-- The Target of the examples of R180 and R181: bytes ff x31, then 1f. -/
def target1f : Words8 :=
  #v[0xffffffff, 0xffffffff, 0xffffffff, 0xffffffff, 0xffffffff, 0xffffffff, 0xffffffff, 0xffffff1f]

/-- "tucker" loaded with that Target. -/
def tuckerState : State := { loaded tucker with target := target1f }

/-- The padded "abc" block (R113). -/
def abcBlock : Words16 := #v[0x61626380, 0, 0, 0, 0, 0, 0, 0, 0, 0, 0, 0, 0, 0, 0, 0x00000018]

/-- Reset with inputs to come. -/
def withInputs (inputs : List Input) : State := { State.reset with inputs := inputs }

/-- A busy engine that runs a DIGEST 0, with inputs to come. -/
def busyWith (left : Nat) (inputs : List Input) : State :=
  { State.reset with cmd := 0x03000000, eng := .busy (.digest 0) left, inputs := inputs }

/-! ### Well-formedness: each check refuses an ill-formed term (R82, R83, R86, R90) -/

theorem test_wf_len : (Instr.digest 0x10000).wf = false ∧ (Instr.digest2 0x10000).wf = false ∧
    (Instr.digest 0xFFFF).wf = true := by decide

theorem test_wf_plen : (Instr.tryNonce 0x10000 1).wf = false ∧ (Instr.search 0x10000 1).wf = false ∧
    (Instr.search 0xFFFF 0).wf = true := by decide

theorem test_wf_w : (Instr.tryNonce 0 16).wf = false ∧ (Instr.search 0 16).wf = false ∧
    (Instr.tryNonce 0 15).wf = true := by decide

theorem test_wf_reserved : (Instr.reserved 0x07 0).wf = false ∧ (Instr.reserved 0x08 0).wf = true := by decide

theorem test_assemble : assemble (.search 76 16) = none ∧ assemble (.digest 5) = some 0x03000005 := by decide

/-! ### Decoding: words written out bit by bit from the formats (R81 to R83, R85) -/

theorem test_decode_nop : decode 0b00000000_000000000000000000000000 = .ok .nop := by rfl
theorem test_decode_init : decode 0b00000001_000000000000000000000000 = .ok .init := by rfl
theorem test_decode_compress : decode 0b00000010_000000000000000000000000 = .ok .compress := by rfl
theorem test_decode_compare : decode 0b00000101_000000000000000000000000 = .ok .compare := by rfl

/-- LEN = 0x8001. -/
theorem test_decode_digest : decode 0b00000011_00000000_1000000000000001 = .ok (.digest 32769) := by rfl

/-- LEN = 81. -/
theorem test_decode_digest2 : decode 0b00000100_00000000_0000000001010001 = .ok (.digest2 81) := by rfl

/-- W = 9, PLEN = 0x4001. -/
theorem test_decode_try : decode 0b00000110_0000_1001_0100000000000001 = .ok (.tryNonce 16385 9) := by rfl

/-- `SEARCH 76, 4` (D40). -/
theorem test_decode_search : decode 0b00000111_0000_0100_0000000001001100 = .ok (.search 76 4) := by rfl

theorem test_decode_reserved : decode 0b10101010_000000000000000000000001 = .ok (.reserved 0xAA 1) := by rfl

/-- Reserved bits set: bit 0 of format N, bit 16 of format L, bit 20 of format S (R87, R88). -/
theorem test_decode_rejects : decode 0x00000001 = .error .reservedBits ∧ decode 0x03010000 = .error .reservedBits ∧
    decode 0x06100000 = .error .reservedBits := by exact ⟨rfl, rfl, rfl⟩

theorem test_decodeTableWord : decodeTableWord 32 0x06010006 = some (.tryNonce 6 1) ∧
    decodeTableWord 32 0x00000001 = none := by decide

/-- The words of R90. -/
theorem test_encode : encode (.tryNonce 6 1) = 0x06010006 ∧ encode (.search 76 4) = 0x0704004C ∧
    encode (.digest2 5) = 0x04000005 := by decide

/-! ### The datapath (examples of R102 to R114) -/

theorem test_rotr_shr : rotr 1 0x12345678 = 0x091a2b3c ∧ rotr 31 0x80000000 = 1 ∧ shr 3 0x12345678 = 0x02468acf := by
  decide

theorem test_ch_maj : ch 0xff00ff00 0x12345678 0x9abcdef0 = 0x12bc56f0 ∧
    maj 0xff00ff00 0x12345678 0x9abcdef0 = 0x9a34de70 := by decide

theorem test_sigmas : bigSigma0 0x12345678 = 0x66146474 ∧ bigSigma1 0x12345678 = 0x3561abda ∧
    smallSigma0 0x12345678 = 0xe7fce6ee ∧ smallSigma1 0x12345678 = 0xa1f78649 := by decide

theorem test_schedule : (schedule abcBlock).getD 17 0 = 0x000f0000 ∧ (schedule abcBlock).getD 18 0 = 0x7da86405 ∧
    (schedule abcBlock).getD 63 0 = 0x12b1edeb := by decide +kernel

theorem test_round : roundStep (Vars.load initialChaining) 0x428a2f98 0x61626380 =
    ⟨0x5d6aebcd, 0x6a09e667, 0xbb67ae85, 0x3c6ef372, 0xfa2a4622, 0x510e527f, 0x9b05688c, 0x1f83d9ab⟩ := by decide

/-- R142. -/
theorem test_nblocks : [0, 55, 56, 63, 64, 65, 119, 120, 183].map nblocks = [1, 1, 2, 2, 2, 2, 2, 3, 3] := by decide

/-- R171: N = 255 against N = 2^248. -/
theorem test_comparator : lessOrEqual (0xff :: List.replicate 31 0) (List.replicate 31 0 ++ [1]) = true ∧
    lessOrEqual (List.replicate 31 0 ++ [1]) (0xff :: List.replicate 31 0) = false := by decide

/-- R173. -/
theorem test_leBytes : leBytes 4 0x12345678 = [0x78, 0x56, 0x34, 0x12] := by decide

/-- V-SRC-2: 64 and 65 bytes 0x61, across the block boundary. -/
theorem test_digestState_boundary :
    digestState (List.replicate 64 0x61) =
        #v[0xffe054fe, 0x7ae0cb6d, 0xc65c3af9, 0xb61d5209, 0xf439851d, 0xb43d0ba5, 0x997337df, 0x154668eb] ∧
      digestState (List.replicate 65 0x61) =
        #v[0x635361c4, 0x8bb9eab1, 0x4198e76e, 0xa8ab7f1a, 0x41685d6a, 0xd62aa914, 0x6d301d4f, 0x17eb0ae0] := by
  decide +kernel

/-! ### The commands -/

/-- R149, R215: NOP while ERR = 1. -/
theorem test_nop : (nextOf (exec .nop { State.reset with cmd := 0x02000000, status := ⟨true, false, false, false, 3⟩ })).map
    (fun t => (t.cmd, t.status.err, t.status.errCode)) = some (0, true, 3) := by decide

/-- R150: INIT from H = 0. -/
theorem test_init : (nextOf (exec .init { State.reset with h := Vector.replicate 8 0 })).map (fun t => (t.cmd, t.h)) =
    some (0x01000000,
      #v[0x6a09e667, 0xbb67ae85, 0x3c6ef372, 0xa54ff53a, 0x510e527f, 0x9b05688c, 0x1f83d9ab, 0x5be0cd19]) := by decide

/-- R151: the padded "abc" block from IV. -/
theorem test_compress : (nextOf (exec .compress { State.reset with block := abcBlock })).map (fun t => t.h) =
    some #v[0xba7816bf, 0x8f01cfea, 0x414140de, 0x5dae2223, 0xb00361a3, 0x96177a9c, 0xb410ff61, 0xf20015ad] := by
  decide +kernel

/-- R117: H = 0 and the zero block. -/
theorem test_compress_zero :
    (nextOf (exec .compress { State.reset with h := Vector.replicate 8 0 })).map (fun t => t.h) =
      some #v[0x7ca51614, 0x425c3ba8, 0xce54dd2f, 0xc2020ae7, 0xb6e574d1, 0x98136d0f, 0xae7e26cc, 0xbf0be7a6] := by
  decide +kernel

/-- R152: "hello". -/
theorem test_digest : (nextOf (exec (.digest 5) (loaded hello))).map (fun t => t.h) =
    some #v[0x2cf24dba, 0x5fb0a30e, 0x26e83b2a, 0xc5b9e29e, 0x1b161e5c, 0x1fa7425e, 0x73043362, 0x938b9824] := by
  decide +kernel

/-- R152: the empty message. -/
theorem test_digest_empty : (nextOf (exec (.digest 0) State.reset)).map (fun t => t.h) =
    some #v[0xe3b0c442, 0x98fc1c14, 0x9afbf4c8, 0x996fb924, 0x27ae41e4, 0x649b934c, 0xa495991b, 0x7852b855] := by
  decide +kernel

/-- R153: "hello". -/
theorem test_digest2 : (nextOf (exec (.digest2 5) (loaded hello))).map (fun t => t.h) =
    some #v[0x9595c9df, 0x90075148, 0xeb068603, 0x65df3358, 0x4b75bff7, 0x82a510c6, 0xcd4883a4, 0x19833d50] := by
  decide +kernel

/-- The H of R179's example and its Target with TARGET[7] = `t7`. -/
def compareState (t7 : Word) : State :=
  { State.reset with
    h := #v[0x9595c9df, 0x90075148, 0xeb068603, 0x65df3358, 0x4b75bff7, 0x82a510c6, 0xcd4883a4, 0x19833d50]
    target := #v[0, 0, 0, 0, 0, 0, 0, t7] }

/-- R179. -/
theorem test_compare : (nextOf (exec .compare (compareState 0x51))).map (fun t => t.status.le) = some true ∧
    (nextOf (exec .compare (compareState 0x50))).map (fun t => t.status.le) = some false := by decide +kernel

/-- R180. -/
theorem test_try : (nextOf (exec (.tryNonce 6 1) tuckerState)).map (fun t => (t.msg.read 6, t.h, t.status.le)) =
    some (some 0x00,
      #v[0x7bd34798, 0x80d0c69f, 0x5e4c7361, 0x1e58f542, 0x3dd032b5, 0x55ce422d, 0x0bd5b0d0, 0xd49c3381], false) := by
  decide +kernel

/-- R181. -/
theorem test_search : (nextOf (exec (.search 6 1) tuckerState)).map (fun t => (t.nonce, t.msg.read 6, t.h)) =
    some (5, some 0x05,
      #v[0x024baeef, 0xbef345fb, 0xa4932737, 0xfb18627b, 0x6766c6b5, 0xad25a7de, 0x80b20693, 0x6033311c]) := by
  decide +kernel

/-- R181: the flags of that search. -/
theorem test_search_flags : (nextOf (exec (.search 6 1) tuckerState)).map
    (fun t => (t.status.le, t.status.found, t.status.exh)) = some (true, true, false) := by decide +kernel

/-- R201. -/
theorem test_reserved : (nextOf (exec (.reserved 0x08 0xFFFFFF) State.reset)).map (fun t => (t.cmd, t.statusWord)) =
    some (0, 0x00000102) := by decide

/-- R62, U3: an unwritten byte. -/
theorem test_unwritten : faultOf (exec (.digest 6) (loaded hello)) = some .unwrittenMessageByte := by decide

/-- R211: `0x07000000` raises 0x04, `0x07F00000` raises 0x02. -/
theorem test_priority :
    (nextOf (step (State.reset.withFetchWord 32 0x07000000))).map (fun t => t.status.errCode) = some 4 ∧
      (nextOf (step (State.reset.withFetchWord 32 0x07F00000))).map (fun t => t.status.errCode) = some 2 := by
  decide

/-! ### Host accesses -/

/-- R54: the word 0x64636261 at 0x1000 stores "abcd". -/
theorem test_msg_write : (nextOf (step (withInputs [loadMsg32 0 0x64636261]))).map (fun t => t.msg) =
    some [(0, 0x61), (1, 0x62), (2, 0x63), (3, 0x64)] := by decide

/-- R54: reading it back, and its byte 2. -/
theorem test_msg_read :
    (nextOf (step { loaded [0x61, 0x62, 0x63, 0x64] with inputs := [rd32 0x1000] })).map (fun t => t.readData) =
        some 0x64636261 ∧
      (nextOf (step { loaded [0x61, 0x62, 0x63, 0x64] with inputs := [rd8 0x1002] })).map (fun t => t.readData) =
        some 0x63 := by decide

/-- R52, R208, R209: unmapped before badly formed; a 1-byte register write. -/
theorem test_access_errors :
    (nextOf (step (withInputs [wr8 0x011 0]))).map (fun t => t.status.errCode) = some 8 ∧
      (nextOf (step (withInputs [wr8 0x020 0]))).map (fun t => t.status.errCode) = some 9 := by decide

/-- R236, R214: busy, a write to H is refused with 0x07 and CLRERR is performed. -/
theorem test_busy_writes :
    (nextOf (step (busyWith 1 [wr32 0x020 5]))).map (fun t => (t.status.errCode, t.h[0], t.eng)) =
        some (7, 0x6a09e667, .busy (.digest 0) 0) ∧
      (nextOf (step { busyWith 1 [clrErr] with status := ⟨true, false, false, false, 7⟩ })).map (fun t => t.status.err) =
        some false := by decide

/-- R231: RESET during a command. -/
theorem test_reset_input : (nextOf (step { busyWith 1 [.reset] with msg := [(0, 1)] })).map (fun t => (t.eng, t.msg, t.cmd)) =
    some (.idle, [], 0) := by decide

/-- R92: SETTARGET writes be32 of the Target's bytes in storage order. -/
theorem test_setTarget : (setTarget (List.replicate 31 0 ++ [0x51])).getLast? = some (wr32 0x09C 0x00000051) := by decide

/-! ### Witnesses: data that meets the hypotheses of each obligation -/

theorem eq_next_of_nextOf {o : Host.Outcome State Fault Refusal} {t : State} (h : nextOf o = some t) : o = .next t := by
  cases o <;> simp_all [nextOf]

theorem exists_next_of_isSome {o : Host.Outcome State Fault Refusal} (h : (nextOf o).isSome = true) :
    ∃ t, o = .next t := by
  obtain ⟨t, ht⟩ := Option.isSome_iff_exists.1 h
  exact ⟨t, eq_next_of_nextOf ht⟩

theorem witness_DecodeOfEncodeIsTheCommand : (Instr.search 0xFFFF 15).wf = true ∧ (Instr.digest 0xFFFF).wf = true ∧
    (Instr.reserved 0x08 0).wf = true ∧ (Instr.reserved 0xFF 0xFFFFFF).wf = true := by decide

theorem witness_DecodedWordIsTheEncoding : decode 0x070FFFFF = .ok (.search 0xFFFF 15) := by rfl

/-- All three clauses. -/
theorem witness_StepRunsTheCommand :
    (∃ s : State, s.eng = .idle ∧ s.inputs = [.access (cmdWriteAccess 0x01000000) 0, .reset] ∧
      decode 0x01000000 = .ok .init) ∧
    decode (BitVec.ofNat 32 0x0704004C) = .ok (.search 76 4) ∧
    (busyWith 0 [.reset]).eng = .busy (.digest 0) 0 :=
  ⟨⟨withInputs [.access (cmdWriteAccess 0x01000000) 0, .reset], rfl, rfl, rfl⟩, rfl, rfl⟩

/-- LEN at MSG_BYTES and one past it. -/
theorem witness_AcceptedCommandIsBusy :
    (∃ s : State, s.eng = .idle ∧ s.inputs = [.access (cmdWriteAccess 0x03001000) 1] ∧
      decode 0x03001000 = .ok (.digest 4096) ∧ issueError s (.digest 4096) = none ∧ 0 < 1) ∧
    (∃ s : State, s.eng = .idle ∧ s.inputs = [.access (cmdWriteAccess 0x03001001) 1] ∧
      decode 0x03001001 = .ok (.digest 4097) ∧ issueError s (.digest 4097) = some .badLength) :=
  ⟨⟨withInputs [.access (cmdWriteAccess 0x03001000) 1], rfl, rfl, rfl, by decide, by decide⟩,
    ⟨withInputs [.access (cmdWriteAccess 0x03001001) 1], rfl, rfl, rfl, by decide⟩⟩

/-- The least and the greatest reserved opcode. -/
theorem witness_ReservedOpcodeIsRefused :
    ∀ c ∈ [(0x08000000 : Word), 0xFFFFFFFF], ∃ s : State, s.eng = .idle ∧ s.inputs = [.access (cmdWriteAccess c) 0] ∧
      0x08 ≤ (c.extractLsb' 24 8).toNat := by
  intro c hc
  refine ⟨withInputs [.access (cmdWriteAccess c) 0], rfl, rfl, ?_⟩
  simp only [List.mem_cons, List.not_mem_nil, or_false] at hc
  rcases hc with rfl | rfl <;> decide

/-- Each format, at the first and the last of its reserved bits. -/
theorem witness_ReservedBitsAreRefused :
    ∀ c ∈ [(0x05000001 : Word), 0x00800000, 0x03010000, 0x04800000, 0x06100000, 0x07800000],
      ∃ s : State, s.eng = .idle ∧ s.inputs = [.access (cmdWriteAccess c) 0] ∧
        (((c.extractLsb' 24 8).toNat ∈ [0x00, 0x01, 0x02, 0x05] ∧ c.extractLsb' 0 24 ≠ 0) ∨
          ((c.extractLsb' 24 8).toNat ∈ [0x03, 0x04] ∧ c.extractLsb' 16 8 ≠ 0) ∨
          ((c.extractLsb' 24 8).toNat ∈ [0x06, 0x07] ∧ c.extractLsb' 20 4 ≠ 0)) := by
  intro c hc
  refine ⟨withInputs [.access (cmdWriteAccess c) 0], rfl, rfl, ?_⟩
  simp only [List.mem_cons, List.not_mem_nil, or_false] at hc
  rcases hc with rfl | rfl | rfl | rfl | rfl | rfl <;> decide

/-- LEN one past MSG_BYTES; W = 0 and W = 9; a candidate one byte too long at both ends of W; NONCE = 256 for W = 1. -/
theorem witness_BadOperandsAreRefused : State.reset.msgBytes < 4097 ∧ ((0 : Nat) = 0 ∨ 8 < 0) ∧ ((9 : Nat) = 0 ∨ 8 < 9) ∧
    State.reset.msgBytes < 4096 + 1 ∧ State.reset.msgBytes < 4089 + 8 ∧ 4095 + 1 ≤ State.reset.msgBytes ∧
    2 ^ (8 * 1) ≤ ({ State.reset with nonce := 256 } : State).nonce.toNat := by decide

/-- A read of the first unmapped offset while idle; a write to the last byte of MSG while busy. -/
theorem witness_RefusedAccessChangesOnlyTheErrorRecord :
    (∃ s : State, s.inputs = [.access ⟨.read, 0x010, .four, 0⟩ 0] ∧
      accessError s ⟨.read, 0x010, .four, 0⟩ = some .badAddress ∧ s.eng = .idle) ∧
    (∃ s : State, s.inputs = [.access ⟨.write, 0x1FFF, .one, 0⟩ 0] ∧
      accessError s ⟨.write, 0x1FFF, .one, 0⟩ = some .busy ∧ s.eng = .busy (.digest 0) (0 + 1)) :=
  ⟨⟨withInputs [.access ⟨.read, 0x010, .four, 0⟩ 0], rfl, by decide, rfl⟩,
    ⟨busyWith 1 [.access ⟨.write, 0x1FFF, .one, 0⟩ 0], rfl, by decide, rfl⟩⟩

/-- CMD and the last word of MSG. -/
theorem witness_BusyWriteIsRefused :
    (∃ s : State, s.eng = .busy (.digest 0) (0 + 1) ∧ s.inputs = [.access ⟨.write, 0x000, .four, 0⟩ 0] ∧
      classify s.msgBytes 0x000 ≠ .unmapped ∧ classify s.msgBytes 0x000 ≠ .reg .status ∧
      badlyFormed (classify s.msgBytes 0x000) 0x000 .four = false) ∧
    (∃ s : State, s.eng = .busy (.digest 0) (0 + 1) ∧ s.inputs = [.access ⟨.write, 0x1FFC, .four, 0⟩ 0] ∧
      classify s.msgBytes 0x1FFC ≠ .unmapped ∧ classify s.msgBytes 0x1FFC ≠ .reg .status ∧
      badlyFormed (classify s.msgBytes 0x1FFC) 0x1FFC .four = false) :=
  ⟨⟨busyWith 1 [.access ⟨.write, 0x000, .four, 0⟩ 0], rfl, rfl, by decide, by decide, by decide⟩,
    ⟨busyWith 1 [.access ⟨.write, 0x1FFC, .four, 0⟩ 0], rfl, rfl, by decide, by decide, by decide⟩⟩

/-- The last word and the last byte of MSG. -/
theorem witness_MsgWriteStoresItsBytes :
    (∃ s : State, s.eng = .idle ∧ s.msgBytes ≤ 4096 ∧ 4092 % 4 = 0 ∧ 4092 + 4 ≤ s.msgBytes ∧
      s.inputs = [.access ⟨.write, BitVec.ofNat 13 (0x1000 + 4092), .four, 7⟩ 0]) ∧
    (∃ s : State, s.eng = .idle ∧ s.msgBytes ≤ 4096 ∧ 4095 < s.msgBytes ∧
      s.inputs = [.access ⟨.write, BitVec.ofNat 13 (0x1000 + 4095), .one, 7⟩ 0]) :=
  ⟨⟨withInputs [.access ⟨.write, BitVec.ofNat 13 (0x1000 + 4092), .four, 7⟩ 0], rfl, by decide, rfl, by decide, rfl⟩,
    ⟨withInputs [.access ⟨.write, BitVec.ofNat 13 (0x1000 + 4095), .one, 7⟩ 0], rfl, by decide, by decide, rfl⟩⟩

/-- The last word and the last byte of MSG, whose last byte is written. -/
theorem witness_MsgReadReturnsTheBytes :
    (∃ s : State, s.eng = .idle ∧ s.msgBytes ≤ 4096 ∧ 4092 % 4 = 0 ∧ 4092 + 4 ≤ s.msgBytes ∧
      s.inputs = [.access ⟨.read, BitVec.ofNat 13 (0x1000 + 4092), .four, 0⟩ 0] ∧ s.msg.read (4092 + 3) = some 7) ∧
    (∃ s : State, s.eng = .idle ∧ s.msgBytes ≤ 4096 ∧ 4095 < s.msgBytes ∧ s.msg.read 4095 = some 7 ∧
      s.inputs = [.access ⟨.read, BitVec.ofNat 13 (0x1000 + 4095), .one, 0⟩ 0]) :=
  ⟨⟨{ withInputs [.access ⟨.read, BitVec.ofNat 13 (0x1000 + 4092), .four, 0⟩ 0] with msg := [(4095, 7)] }, rfl,
      by decide, rfl, by decide, rfl, rfl⟩,
    ⟨{ withInputs [.access ⟨.read, BitVec.ofNat 13 (0x1000 + 4095), .one, 0⟩ 0] with msg := [(4095, 7)] }, rfl,
      by decide, by decide, rfl, rfl⟩⟩

theorem witness_RegistersLieAtTheirOffsets :
    (Reg.target 7).offset + 3 = 0x09F ∧ (Reg.block 15).offset + 3 = 0x07F ∧ (Reg.h 7).offset + 3 = 0x03F ∧ 3 < 4 := by decide

theorem witness_RegisterWriteSetsThatRegister : ∃ s : State, s.eng = .idle ∧ (Reg.target 7) ≠ .cmd ∧
    (Reg.target 7) ≠ .status ∧ s.inputs = [.access ⟨.write, BitVec.ofNat 13 (Reg.target 7).offset, .four, 9⟩ 0] :=
  ⟨withInputs [.access ⟨.write, BitVec.ofNat 13 (Reg.target 7).offset, .four, 9⟩ 0], rfl, by decide, by decide, rfl⟩

theorem witness_RegisterReadReturnsItsValue : ∃ s : State, s.eng = .idle ∧
    s.inputs = [.access ⟨.read, BitVec.ofNat 13 (Reg.h 7).offset, .four, 0⟩ 0] :=
  ⟨withInputs [.access ⟨.read, BitVec.ofNat 13 (Reg.h 7).offset, .four, 0⟩ 0], rfl, rfl⟩

/-- Idle and busy. -/
theorem witness_StatusWriteClearsTheError :
    (∃ s : State, s.inputs = [.access ⟨.write, 0x004, .four, 2⟩ 0] ∧ s.eng = .idle) ∧
      (∃ s : State, s.inputs = [.access ⟨.write, 0x004, .four, 2⟩ 0] ∧ s.eng = .busy (.digest 0) (0 + 1)) :=
  ⟨⟨withInputs [.access ⟨.write, 0x004, .four, 2⟩ 0], rfl, rfl⟩, ⟨busyWith 1 [.access ⟨.write, 0x004, .four, 2⟩ 0], rfl, rfl⟩⟩

theorem witness_FirstErrorIsKept : State.reset.status.err = false ∧
    (State.reset.raise .badLength).status.err = true := by decide

/-- Idle and busy. -/
theorem witness_ReadsHaveNoSideEffect :
    (∃ s : State, s.inputs = [.access ⟨.read, 0x1FFF, .one, 0⟩ 0] ∧ accessError s ⟨.read, 0x1FFF, .one, 0⟩ = none ∧
      s.eng = .idle) ∧
    (∃ s : State, s.inputs = [.access ⟨.read, 0x020, .four, 0⟩ 0] ∧ accessError s ⟨.read, 0x020, .four, 0⟩ = none ∧
      s.eng = .busy (.digest 0) (0 + 1)) :=
  ⟨⟨withInputs [.access ⟨.read, 0x1FFF, .one, 0⟩ 0], rfl, by decide, rfl⟩,
    ⟨busyWith 1 [.access ⟨.read, 0x020, .four, 0⟩ 0], rfl, by decide, rfl⟩⟩

theorem witness_BusyStatusReadIsTrueInBusyAndError : ∃ s : State, s.eng = .busy (.digest 0) (0 + 1) ∧
    s.inputs = [.access ⟨.read, 0x004, .four, 0⟩ 0] :=
  ⟨busyWith 1 [.access ⟨.read, 0x004, .four, 0⟩ 0], rfl, rfl⟩

/-- Idle, and in the middle of a command. -/
theorem witness_ResetInputGivesTheResetState :
    (∃ s : State, s.inputs = [.reset] ∧ ∀ i, s.eng ≠ .busy i 0) ∧
      (∃ s : State, s.inputs = [.reset] ∧ s.eng = .busy (.digest 0) 1 ∧ ∀ i, s.eng ≠ .busy i 0) :=
  ⟨⟨withInputs [.reset], rfl, by simp [withInputs, State.reset]⟩, ⟨busyWith 1 [.reset], rfl, rfl, by simp [busyWith]⟩⟩

/-- The least and the greatest MSG_BYTES. -/
theorem witness_ResetMeetsTheInvariant : Config.legalMsgBytes 80 = true ∧ Config.legalMsgBytes 4096 = true ∧
    Config.legalMsgBytes 76 = false ∧ Config.legalMsgBytes 4100 = false := by decide

/-- An idle and a busy state that meet the invariant and step. -/
theorem witness_StepKeepsTheInvariant :
    (∃ s t : State, s.Inv ∧ step s = .next t) ∧
      (∃ s t : State, s.Inv ∧ s.eng = .busy (.digest 0) 1 ∧ step s = .next t) := by
  refine ⟨⟨withInputs [loadMsg32 0 7], ?_⟩, ⟨busyWith 1 [rd32 0x004], ?_⟩⟩
  · obtain ⟨t, ht⟩ := exists_next_of_isSome (o := step (withInputs [loadMsg32 0 7])) (by decide)
    exact ⟨t, by unfold State.Inv; decide, ht⟩
  · obtain ⟨t, ht⟩ := exists_next_of_isSome (o := step (busyWith 1 [rd32 0x004])) (by decide)
    exact ⟨t, by unfold State.Inv; decide, rfl, ht⟩

/-- The ends of each range. -/
theorem witness_RotateAndShiftBits : 0 < 1 ∧ 1 < 32 ∧ 0 < 31 ∧ 31 < 32 := by decide

theorem witness_ChoiceAndMajorityBits : (31 : Nat) < 32 := by decide

theorem witness_SigmaBits : (0 : Nat) < 32 ∧ (31 : Nat) < 32 := by decide

theorem witness_ScheduleRecurrence : 16 ≤ 16 ∧ 16 < 64 ∧ 16 ≤ 63 ∧ 63 < 64 := by decide

/-- The working variables before each round. -/
def varsBefore (hin : Words8) (m : Words16) : Nat → Vars
  | 0 => ⟨hin[0], hin[1], hin[2], hin[3], hin[4], hin[5], hin[6], hin[7]⟩
  | t + 1 =>
    let x := varsBefore hin m t
    let t1 := x.h + bigSigma1 x.e + ch x.e x.f x.g + roundConstants.getD t 0 + (schedule m).getD t 0
    let t2 := bigSigma0 x.a + maj x.a x.b x.c
    ⟨t1 + t2, x.a, x.b, x.c, x.d + t1, x.e, x.f, x.g⟩

theorem witness_CompressRunsSixtyFourRounds : ∃ (hin : Words8) (m : Words16) (v : Nat → Vars),
    v 0 = ⟨hin[0], hin[1], hin[2], hin[3], hin[4], hin[5], hin[6], hin[7]⟩ ∧
      ∀ t, t < 64 → v (t + 1) =
        let x := v t
        let t1 := x.h + bigSigma1 x.e + ch x.e x.f x.g + roundConstants.getD t 0 + (schedule m).getD t 0
        let t2 := bigSigma0 x.a + maj x.a x.b x.c
        ⟨t1 + t2, x.a, x.b, x.c, x.d + t1, x.e, x.f, x.g⟩ :=
  ⟨initialChaining, abcBlock, varsBefore initialChaining abcBlock, rfl, fun _ _ => rfl⟩

/-- The one block of "hello" and the last of a message of 64 bytes. -/
theorem witness_BlockWordsAreBigEndian : 0 < (messageBlocks hello).length ∧
    1 < (messageBlocks (List.replicate 64 0x61)).length := by
  constructor <;> simp [messageBlocks, nblocks, hello]

theorem witness_DigestBytes : (0 : Nat) < 4 ∧ 3 < 4 := by decide

/-- Equal sequences, and two that differ in byte 31 alone. -/
theorem witness_ComparatorIsTheByteProcedure : (List.replicate 32 (0xff : Byte)).length = 32 ∧
    (List.replicate 31 (0 : Byte) ++ [1]).length = 32 := by decide

theorem witness_NonceFieldDenotesTheNonce : (8 : Nat) ≤ 8 ∧ 2 ^ 64 - 1 < 2 ^ (8 * 8) ∧ 255 < 2 ^ (8 * 1) ∧ 7 < 8 := by decide

theorem witness_HardwareTrialIsThePureTrial : (loaded tucker).msg.readBytes 0 6 = some tucker ∧
    State.reset.msg.readBytes 0 0 = some [] := by decide

/-- LEN = MSG_BYTES, and LEN = 0. -/
theorem witness_DigestCompletes :
    (∃ s : State, 80 ≤ s.msgBytes ∧ s.msgBytes = 80 ∧ s.msg.readBytes 0 80 = some (List.replicate 80 0x61)) ∧
      0 ≤ State.reset.msgBytes ∧ State.reset.msg.readBytes 0 0 = some [] :=
  ⟨⟨{ loaded (List.replicate 80 0x61) with msgBytes := 80 }, by decide, rfl, by decide +kernel⟩, by decide, rfl⟩

theorem witness_DigestTwiceCompletes : 5 ≤ (loaded hello).msgBytes ∧ (loaded hello).msg.readBytes 0 5 = some hello := by
  decide

/-- PLEN = 0 with W = 8 and the greatest NONCE, and a prefix with W = 1. -/
theorem witness_TryCompletes :
    (∃ s : State, 1 ≤ 8 ∧ 8 ≤ 8 ∧ 0 + 8 ≤ s.msgBytes ∧ s.nonce.toNat = 2 ^ 64 - 1 ∧ s.nonce.toNat < 2 ^ (8 * 8) ∧
      s.msg.readBytes 0 0 = some []) ∧
    (∃ s : State, 1 ≤ 1 ∧ 1 ≤ 8 ∧ 6 + 1 ≤ s.msgBytes ∧ s.nonce.toNat < 2 ^ (8 * 1) ∧
      s.msg.readBytes 0 6 = some tucker) :=
  ⟨⟨{ State.reset with nonce := 0xFFFFFFFFFFFFFFFF }, by decide, by decide, by decide, by decide, by decide, rfl⟩,
    ⟨tuckerState, by decide, by decide, by decide, by decide, by decide⟩⟩

theorem witness_SearchCompletes : 1 ≤ 1 ∧ 1 ≤ 8 ∧ 6 + 1 ≤ tuckerState.msgBytes ∧
    tuckerState.msg.readBytes 0 6 = some tucker := by decide

/-- A SEARCH that finds a nonce, and the TRY after it. -/
theorem witness_TryReproducesTheSearch : ∃ s t u : State, 1 ≤ 1 ∧ 1 ≤ 8 ∧ 6 + 1 ≤ s.msgBytes ∧
    exec (.search 6 1) s = .next t ∧ t.status.found = true ∧ exec (.tryNonce 6 1) t = .next u := by
  have h : ((nextOf (exec (.search 6 1) tuckerState)).bind fun t =>
      if t.status.found then nextOf (exec (.tryNonce 6 1) t) else none).isSome = true := by decide +kernel
  obtain ⟨u, hu⟩ := Option.isSome_iff_exists.1 h
  obtain ⟨t, ht, hu⟩ := Option.bind_eq_some_iff.1 hu
  split at hu
  · rename_i hf
    exact ⟨tuckerState, t, u, by decide, by decide, by decide, eq_next_of_nextOf ht, hf, eq_next_of_nextOf hu⟩
  · cases hu

theorem witness_DigestIsInitThenCompressEachBlock : ∃ s t : State, 5 ≤ s.msgBytes ∧ s.msg.readBytes 0 5 = some hello ∧
    exec (.digest 5) s = .next t := by
  obtain ⟨t, ht⟩ := exists_next_of_isSome (o := exec (.digest 5) (loaded hello)) (by decide +kernel)
  exact ⟨loaded hello, t, by decide, by decide, ht⟩

/-- A command that is ready and one that is not. -/
theorem witness_OnlyUnwrittenBytesStopACommand :
    issueError (loaded hello) (.digest 5) = none ∧ (loaded hello).ready (.digest 5) = true ∧
      issueError (loaded hello) (.search 6 8) = none ∧ (loaded hello).ready (.search 6 8) = false := by decide

/-- An accepted command and a refused one. -/
theorem witness_CommandFrame :
    (∃ s t : State, exec .compare s = .next t ∧ issueError s .compare = none) ∧
      (∃ s t : State, exec (.digest 4097) s = .next t ∧ issueError s (.digest 4097) = some .badLength) :=
  ⟨⟨State.reset, _, exec_compare _, rfl⟩, ⟨State.reset, _, exec_of_error (e := .badLength) (by decide), by decide⟩⟩

theorem witness_EarlierChainingStateIsNotRead : issueError State.reset (.digest 4096) = none ∧
    issueError State.reset (.digest2 0) = none ∧ issueError State.reset (.tryNonce 4088 8) = none ∧
    issueError State.reset (.search 0 1) = none := by decide

theorem witness_BusyCommandCompletes : (busyWith 3 []).eng = .busy (.digest 0) 3 ∧ (busyWith 3 []).inputs = [] := by decide

/-- A command with one STATUS poll and one refused write before it completes. -/
theorem witness_CommandIsAtomic : ∃ (s : State) (accs : List (Access × Nat)), (Instr.digest 0).wf = true ∧ s.eng = .idle ∧
    issueError s (.digest 0) = none ∧ accs ≠ [] ∧
    s.inputs = .access (cmdWriteAccess (encode (.digest 0))) accs.length :: accs.map (fun a => .access a.1 a.2) :=
  ⟨withInputs [.access (cmdWriteAccess (encode (.digest 0))) 2, rd32 0x004, wr32 0x020 0],
    [(⟨.read, 0x004, .four, 0⟩, 0), (⟨.write, 0x020, .four, 0⟩, 0)], rfl, rfl, by decide, by simp, rfl⟩

end Sys2Proof.Tests
end

/-! PROOFS. The invariant of the block: the state after reset meets it and every step keeps it (spec 00_scope.md R9,
10_state.md R22, R23, R32, 20_memory.md R51, 30_encoding.md R89). -/

namespace Sys2Proof

/-! ### A word that decodes is the word of what it decodes to (R89) -/

/-- What format N accepts is a command whose word has the opcode and no operand (R81). -/
theorem wf_and_encode_of_decodeN {c : Word} {i j : Instr} (hwf : i.wf = true) (henc : encode i = encodeN (opcodeOf c))
    (h : decodeN c i = .ok j) : j.wf = true ∧ encode j = c := by
  unfold decodeN at h
  split at h
  · rename_i hz
    cases h
    rw [field_eq_zero] at hz
    refine ⟨hwf, BitVec.eq_of_toNat_eq ?_⟩
    rw [henc, encodeN_toNat, opcodeOf_toNat]; omega
  · cases h

/-- What format L accepts is a command whose word has the opcode and the length (R82). -/
theorem wf_and_encode_of_decodeL {c : Word} {f : Nat → Instr} {j : Instr} (hwf : ∀ len, (f len).wf = Instr.lenFits len)
    (henc : ∀ len, encode (f len) = encodeL (opcodeOf c) len) (h : decodeL c f = .ok j) :
    j.wf = true ∧ encode j = c := by
  unfold decodeL at h
  split at h
  · rename_i hz
    cases h
    rw [field_eq_zero] at hz
    have hlen := (c.extractLsb' 0 16).isLt
    refine ⟨by rw [hwf, Instr.lenFits, decide_eq_true_eq]; omega, BitVec.eq_of_toNat_eq ?_⟩
    rw [henc, encodeL_toNat _ hlen, opcodeOf_toNat, field_toNat]; omega
  · cases h

/-- What format S accepts is a command whose word has the opcode, PLEN and W (R83). -/
theorem wf_and_encode_of_decodeS {c : Word} {f : Nat → Nat → Instr} {j : Instr}
    (hwf : ∀ plen w, (f plen w).wf = Instr.searchFits plen w)
    (henc : ∀ plen w, encode (f plen w) = encodeS (opcodeOf c) plen w) (h : decodeS c f = .ok j) :
    j.wf = true ∧ encode j = c := by
  unfold decodeS at h
  split at h
  · rename_i hz
    cases h
    rw [field_eq_zero] at hz
    have hplen := (c.extractLsb' 0 16).isLt
    have hw := (c.extractLsb' 16 4).isLt
    refine ⟨by rw [hwf, Instr.searchFits, Bool.and_eq_true, decide_eq_true_eq, decide_eq_true_eq]; omega,
      BitVec.eq_of_toNat_eq ?_⟩
    rw [henc, encodeS_toNat _ hplen hw, opcodeOf_toNat, field_toNat, field_toNat]; omega
  · cases h

/-- A reserved word is its opcode and its operand field (R86). -/
theorem opcodeOf_append_operand (c : Word) : (opcodeOf c ++ c.extractLsb' 0 24 : Word) = c := by
  apply BitVec.eq_of_toNat_eq
  rw [reservedWord_toNat, opcodeOf_toNat, field_toNat]; omega

/-- No bit of an accepted word is dropped, and what it decodes to is well-formed (R84, R87, R89). -/
theorem wf_and_encode_of_decode {c : Word} {i : Instr} (h : decode c = .ok i) : i.wf = true ∧ encode i = c := by
  have opc {k : Nat} (hk : (opcodeOf c).toNat = k) : opcodeOf c = BitVec.ofNat 8 k := by simp [← hk]
  rcases decode_cases c with ⟨hk, hd⟩ | ⟨hk, hd⟩ | ⟨hk, hd⟩ | ⟨hk, hd⟩ | ⟨hk, hd⟩ | ⟨hk, hd⟩ | ⟨hk, hd⟩ | ⟨hk, hd⟩ |
    ⟨hk, hd⟩ <;> rw [hd] at h
  · exact wf_and_encode_of_decodeN rfl (by rw [opc hk]; rfl) h
  · exact wf_and_encode_of_decodeN rfl (by rw [opc hk]; rfl) h
  · exact wf_and_encode_of_decodeN rfl (by rw [opc hk]; rfl) h
  · exact wf_and_encode_of_decodeL (fun _ => rfl) (fun _ => by rw [opc hk]; rfl) h
  · exact wf_and_encode_of_decodeL (fun _ => rfl) (fun _ => by rw [opc hk]; rfl) h
  · exact wf_and_encode_of_decodeN rfl (by rw [opc hk]; rfl) h
  · exact wf_and_encode_of_decodeS (fun _ _ => rfl) (fun _ _ => by rw [opc hk]; rfl) h
  · exact wf_and_encode_of_decodeS (fun _ _ => rfl) (fun _ _ => by rw [opc hk]; rfl) h
  · cases h
    exact ⟨decide_eq_true hk, opcodeOf_append_operand c⟩

end Sys2Proof

namespace Sys2Proof.Machine

/-! ### STATUS stays consistent (R23, R212, R214) -/

/-- Every code of the block is 1 to 9 (R201 to R209). -/
theorem CmdError.code_range (e : CmdError) : 1 ≤ e.code.toNat ∧ e.code.toNat ≤ 9 := by cases e <;> decide

/-- Consistency as a proposition: FOUND and EXH exclude each other, and ERRCODE agrees with ERR. -/
theorem Status.consistent_iff (st : Status) :
    st.consistent = true ↔ ¬ (st.found = true ∧ st.exh = true) ∧
      (st.err = true → 1 ≤ st.errCode.toNat ∧ st.errCode.toNat ≤ 9) ∧ (st.err = false → st.errCode = 0) := by
  unfold consistent; cases st.err <;> cases st.found <;> simp

theorem Status.record_consistent {st : Status} (h : st.consistent = true) (e : CmdError) :
    (st.record e.code).consistent = true := by
  cases herr : st.err with
  | true => rwa [Status.record_of_err herr]
  | false =>
    rw [Status.consistent_iff] at h ⊢
    rw [Status.record_of_no_err herr]
    exact ⟨h.1, fun _ => e.code_range, nofun⟩

theorem Status.clear_consistent {st : Status} (h : st.consistent = true) : st.clear.consistent = true := by
  rw [Status.consistent_iff] at h ⊢
  exact ⟨h.1, nofun, fun _ => rfl⟩

theorem Status.setLe_consistent {st : Status} (h : st.consistent = true) (b : Bool) :
    (st.setLe b).consistent = true := h

theorem Status.setSearchResult_consistent {st : Status} (h : st.consistent = true) (b : Bool) :
    (st.setSearchResult b).consistent = true := by
  rw [Status.consistent_iff] at h ⊢
  exact ⟨by simp, h.2⟩

/-! ### CMD and the engine (R22, R32) -/

/-- A command that decodes and passes its checks at issue is no reserved opcode: CMD may hold its word. -/
theorem legalCmd_of_decode {c : Word} {i : Instr} {s : State} (hd : decode c = .ok i) (hi : issueError s i = none) :
    legalCmd c = true := by
  unfold legalCmd
  rw [hd]
  cases i with
  | reserved opc x => simp [issueError] at hi
  | _ => rfl

/-- CMD after reset holds the word of NOP (R230). -/
theorem legalCmd_zero : legalCmd 0 = true := by decide

theorem State.engineLegal_of_idle {s : State} (h : s.eng = .idle) : s.engineLegal = true := by simp [engineLegal, h]

theorem State.engineLegal_busy_iff {s : State} {i : Instr} {left : Nat} (h : s.eng = .busy i left) :
    s.engineLegal = true ↔ i.wf = true ∧ s.cmd = encode i ∧ issueError s i = none := by
  simp [engineLegal, h, and_assoc]

/-! ### The invariant under the shared updates -/

/-- An update that keeps MSG_BYTES, MSG, CMD and the engine, and NONCE while the engine is busy (a busy TRY was checked
against it), has STATUS alone to answer for. -/
theorem State.Inv.of_status {s t : State} (h : s.Inv) (hsize : t.msgBytes = s.msgBytes) (hmsg : t.msg = s.msg)
    (hcmd : t.cmd = s.cmd) (heng : t.eng = s.eng) (hnonce : s.eng = .idle ∨ t.nonce = s.nonce)
    (hst : t.status.consistent = true) : t.Inv := by
  obtain ⟨hlegal, hwf, hbelow, -, hc, he⟩ := h
  refine ⟨hsize ▸ hlegal, hmsg ▸ hwf, hmsg ▸ hsize ▸ hbelow, hst, hcmd ▸ hc, ?_⟩
  cases hs : s.eng with
  | idle => exact State.engineLegal_of_idle (heng.trans hs)
  | busy i left =>
    have hn : t.nonce = s.nonce := hnonce.resolve_left (by simp [hs])
    rw [State.engineLegal_busy_iff hs] at he
    rwa [State.engineLegal_busy_iff (heng.trans hs), hcmd, issueError_congr hsize hn]

theorem State.Inv.status {s : State} (h : s.Inv) : s.status.consistent = true := by
  obtain ⟨-, -, -, hst, -, -⟩ := h; exact hst

theorem State.Inv.with_inputs {s : State} (h : s.Inv) (rest : List Input) : { s with inputs := rest }.Inv :=
  h.of_status rfl rfl rfl rfl (.inr rfl) h.status

theorem State.Inv.raise {s : State} (h : s.Inv) (e : CmdError) : (s.raise e).Inv :=
  h.of_status rfl rfl rfl rfl (.inr rfl) (Status.record_consistent h.status e)

theorem State.Inv.refuseAccess {s : State} (h : s.Inv) (a : Access) (e : CmdError) : (s.refuseAccess a e).Inv := by
  unfold State.refuseAccess
  cases a.kind with
  | read => exact (h.raise e).of_status rfl rfl rfl rfl (.inr rfl) (h.raise e).status
  | write => exact h.raise e

theorem State.Inv.hostRead {s : State} (h : s.Inv) (a : Access) : (s.hostRead a).Inv :=
  h.of_status rfl rfl rfl rfl (.inr rfl) h.status

/-- A write to STATUS leaves NONCE, the one register the checks at issue read, alone. -/
@[simp] theorem State.writeReg_status_nonce (s : State) (v : Word) : (s.writeReg v .status).nonce = s.nonce := by
  rcases s.writeStatus_cases v with h | h <;> simp [State.writeReg, h]

/-- A register write keeps the invariant: an idle engine is legal whatever NONCE holds, and a busy block takes a STATUS
write alone (R236). -/
theorem State.Inv.writeReg {s : State} (h : s.Inv) (v : Word) {r : Reg} (hr : s.eng = .idle ∨ r = .status) :
    (s.writeReg v r).Inv := by
  obtain ⟨hmsg, heng, hsize, -, hcmd, -, -, -, hst⟩ := s.writeReg_keeps v r
  refine h.of_status hsize hmsg hcmd heng (hr.imp_right fun hr => by rw [hr]; simp) ?_
  rcases hst with hst | hst <;> rw [hst]
  · exact h.status
  · exact Status.clear_consistent h.status

/-- A host write to MSG keeps the invariant: a word at an index that is a multiple of 4 ends inside MSG, as MSG_BYTES is a
multiple of 4 (R9, R54). -/
theorem State.Inv.writeMsg {s : State} (h : s.Inv) {a : Nat} {size : AccessSize} (ha : a < s.msgBytes)
    (halign : size = .four → a % 4 = 0) (v : Word) : (s.writeMsg a size v).Inv := by
  obtain ⟨hlegal, hwf, hbelow, hst, hcmd, heng⟩ := h
  have hone : { s with msg := s.msg.write a (v.extractLsb' 0 8) }.Inv :=
    ⟨hlegal, Memory.write_wf _ _ _ hwf, Memory.write_below _ _ _ hbelow ha, hst, hcmd, heng⟩
  cases size with
  | one => exact hone
  | two => exact hone
  | four =>
    have hend : a + (busBytes v).length ≤ s.msgBytes := by
      have h4 : s.msgBytes % 4 = 0 := by
        simp only [Config.legalMsgBytes, Bool.and_eq_true, beq_iff_eq] at hlegal; exact hlegal.2
      have := halign rfl
      simp only [busBytes, List.length_cons, List.length_nil]; omega
    exact ⟨hlegal, Memory.writeBytes_wf _ _ _ hwf, Memory.writeBytes_below _ _ _ hbelow hend, hst, hcmd, heng⟩

/-- RESET gives a state that meets the invariant from any legal MSG_BYTES (R230). -/
theorem State.resetFrom_inv {s : State} (h : Config.legalMsgBytes s.msgBytes = true) : s.resetFrom.Inv :=
  ⟨h, rfl, rfl, rfl, legalCmd_zero, State.engineLegal_of_idle rfl⟩

/-! ### The invariant under a command -/

/-- The nonce field of a TRY or SEARCH that passes its checks lies inside MSG (R205). -/
theorem nonceField_le_msgBytes {s : State} {i : Instr} {plen w : Nat} (hi : i = .tryNonce plen w ∨ i = .search plen w)
    (h : issueError s i = none) : plen + w ≤ s.msgBytes := by
  rcases hi with rfl | rfl
  · obtain ⟨⟨-, -, hle⟩, -⟩ := (issueError_tryNonce_eq_none_iff s plen w).1 h; exact hle
  · obtain ⟨-, -, hle⟩ := (candidateError_eq_none_iff s.msgBytes plen w).1 h; exact hle

/-- An accepted command, run to its completion on an idle engine, keeps the invariant where CMD may hold its word. -/
theorem State.Inv.exec {s t : State} {i : Instr} (h : s.Inv) (hidle : s.eng = .idle) (hi : issueError s i = none)
    (hcmd : legalCmd (encode i) = true) (ht : exec i s = .next t) : t.Inv := by
  obtain ⟨hlegal, hwf, hbelow, hst, -, -⟩ := h
  obtain ⟨h', n, st, nonce, msg, rfl, hst', -, -, hmsg⟩ := exec_accepted_cases hi ht
  have hm : msg.wf = true ∧ msg.below s.msgBytes = true := by
    rcases hmsg with rfl | ⟨plen, w, hf, keeps⟩
    · exact ⟨hwf, hbelow⟩
    · have hle := nonceField_le_msgBytes hf hi
      exact keeps (fun m => m.wf = true ∧ m.below s.msgBytes = true)
        (fun m k hm => ⟨Memory.writeBytes_wf _ _ _ hm.1, Memory.writeBytes_below _ _ _ hm.2 (by simpa using hle)⟩)
        ⟨hwf, hbelow⟩
  have hs : st.consistent = true := by
    rcases hst' with ⟨rfl, -⟩ | ⟨b, rfl, -⟩ | ⟨b, rfl, -⟩
    · exact hst
    · exact Status.setLe_consistent hst b
    · exact Status.setSearchResult_consistent hst b
  exact ⟨hlegal, hm.1, hm.2, hs, hcmd, State.engineLegal_of_idle hidle⟩

/-- A CMD write keeps the invariant: what it accepts is the command of the word written, well-formed and no reserved
opcode (R22, R89). -/
theorem State.Inv.commandWrite {s t : State} {c : Word} {hold : Nat} (h : s.Inv) (hidle : s.eng = .idle)
    (ht : commandWrite c hold s = .next t) : t.Inv := by
  rcases commandWrite_cases c hold s with ⟨e, hc⟩ | ⟨i, hd, hi, hc⟩ | ⟨i, hd, hi, hc⟩ <;> rw [hc] at ht
  · cases ht; exact h.raise e
  · obtain ⟨-, henc⟩ := wf_and_encode_of_decode hd
    exact h.exec hidle hi (by rw [henc]; exact legalCmd_of_decode hd hi) ht
  · obtain ⟨hiwf, henc⟩ := wf_and_encode_of_decode hd
    obtain ⟨hlegal, hwf, hbelow, hst, -, -⟩ := h
    cases ht
    refine ⟨hlegal, hwf, hbelow, hst, ?_, ?_⟩
    · rw [State.accept_cmd, henc]; exact legalCmd_of_decode hd hi
    · rw [State.engineLegal_busy_iff rfl]; exact ⟨hiwf, rfl, (issueError_congr rfl rfl i).trans hi⟩

/-! ### The invariant under a step -/

theorem State.Inv.hostAccess {s t : State} {a : Access} {hold : Nat} (h : s.Inv) (ht : hostAccess a hold s = .next t) :
    t.Inv := by
  rcases hostAccess_cases a hold s with ⟨e, -, hc⟩ | ⟨-, -, hc⟩ | ⟨-, -, hidle, hc⟩ | ⟨r, -, -, -, hr, hc⟩ |
    ⟨x, -, -, -, hx, halign, hc⟩ <;> rw [hc] at ht
  · cases ht; exact h.refuseAccess a e
  · cases ht; exact h.hostRead a
  · exact h.commandWrite hidle ht
  · cases ht; exact h.writeReg a.data hr
  · cases ht; exact h.writeMsg hx halign a.data

theorem State.Inv.takeInput {s t : State} (h : s.Inv) (ht : takeInput s = .next t) : t.Inv := by
  cases hin : s.inputs with
  | nil => rw [takeInput_nil hin] at ht; cases ht; exact h
  | cons x rest =>
    cases x with
    | access a hold => rw [takeInput_access hin] at ht; exact (h.with_inputs rest).hostAccess ht
    | reset =>
      obtain ⟨hlegal, -, -, -, -, -⟩ := h
      rw [takeInput_reset hin] at ht; cases ht; exact (State.resetFrom_inv hlegal).with_inputs rest

/-- The engine may go idle, or wait for another number of inputs with the command it has. -/
theorem State.Inv.with_eng {s : State} {i : Instr} {left : Nat} (h : s.Inv) (hs : s.eng = .busy i left) {eng : Engine}
    (heng : eng = .idle ∨ ∃ left', eng = .busy i left') : { s with eng := eng }.Inv := by
  obtain ⟨hlegal, hwf, hbelow, hst, hcmd, he⟩ := h
  refine ⟨hlegal, hwf, hbelow, hst, hcmd, ?_⟩
  rcases heng with rfl | ⟨left', rfl⟩
  · exact State.engineLegal_of_idle rfl
  · rw [State.engineLegal_busy_iff hs] at he
    obtain ⟨hiwf, henc, hi⟩ := he
    rw [State.engineLegal_busy_iff rfl]; exact ⟨hiwf, henc, (issueError_congr rfl rfl i).trans hi⟩

/-- The completion keeps the invariant: the engine's command is the one CMD holds, and it still passes its checks. -/
theorem State.Inv.complete {s t : State} {i : Instr} {left : Nat} (h : s.Inv) (hs : s.eng = .busy i left)
    (ht : Machine.exec i { s with eng := .idle } = .next t) : t.Inv := by
  have ⟨_, _, _, _, hcmd, he⟩ := h
  obtain ⟨-, henc, hi⟩ := (State.engineLegal_busy_iff hs).1 he
  exact (h.with_eng hs (.inl rfl)).exec rfl ((issueError_congr rfl rfl i).trans hi) (henc ▸ hcmd) ht

theorem State.Inv.step {s t : State} (h : s.Inv) (ht : step s = .next t) : t.Inv := by
  cases hs : s.eng with
  | idle => rw [step_idle hs] at ht; exact h.takeInput ht
  | busy i left =>
    cases left with
    | zero => rw [step_complete hs] at ht; exact h.complete hs ht
    | succ k => rw [step_busy hs] at ht; exact (h.with_eng hs (.inr ⟨k, rfl⟩)).takeInput ht

/-! ### The statements -/

/-- Settles O26, by the cases of a step: an input on an idle or a waiting engine, or the completion. -/
theorem stepKeepsTheInvariant : Obligations.StepKeepsTheInvariant := fun _ _ h ht => h.step ht

/-- Settles O25: the state after reset is what RESET gives at the default MSG_BYTES. -/
theorem resetMeetsTheInvariant : Obligations.ResetMeetsTheInvariant :=
  ⟨State.resetFrom_inv (s := State.reset) (by decide), fun _ h => State.resetFrom_inv h⟩

end Sys2Proof.Machine

/-! PROOFS. The registers and STATUS under host accesses (spec 10_state.md R21 to R28, 20_memory.md R52, R53,
60_exceptions.md R214), and what the issue and the execution of each command do (30_encoding.md R89, 41_digest.md R149 to
R153, 42_search.md R178 to R181). -/

namespace Sys2Proof.Machine

/-! ### Where the registers lie (R21, R52) -/

/-- The registers end below offset 0x0A0. -/
theorem Reg.offset_le (r : Reg) : r.offset ≤ 0x09C := by
  cases r <;> simp only [Reg.offset] <;> omega

/-- Every register lies at a multiple of 4. -/
theorem Reg.offset_mod_four (r : Reg) : r.offset % 4 = 0 := by
  cases r <;> simp only [Reg.offset] <;> omega

/-- A byte offset of a register fits the 13 bits of the bus. -/
theorem Reg.offset_add_toNat (r : Reg) {k : Nat} (hk : k < 4) :
    (BitVec.ofNat 13 (r.offset + k)).toNat = r.offset + k := by
  have := r.offset_le
  rw [BitVec.toNat_ofNat]; omega

/-- The index of the word that holds byte `k` of word `i` of an array of words. -/
theorem ofNat_byte_div_four {n : Nat} [NeZero n] (base k : Nat) (i : Fin n) (hk : k < 4) :
    Fin.ofNat n ((base + 4 * i.val + k - base) / 4) = i := by
  rw [show (base + 4 * i.val + k - base) / 4 = i.val by omega]; simp

/-- `classify` gives a register for each of its four byte offsets. -/
theorem classify_offset (msgBytes : Nat) (r : Reg) {k : Nat} (hk : k < 4) :
    classify msgBytes (BitVec.ofNat 13 (r.offset + k)) = .reg r := by
  have hn := r.offset_add_toNat hk
  generalize BitVec.ofNat 13 (r.offset + k) = off at hn
  unfold classify
  cases r <;> simp only [Reg.offset] at hn <;> simp only [hn]
  case cmd => rw [if_pos (by omega)]
  case status => rw [if_neg (by omega), if_pos (by omega)]
  case nonceLo =>
    iterate 2 rw [if_neg (by omega)]
    rw [if_pos (by omega)]
  case nonceHi =>
    iterate 3 rw [if_neg (by omega)]
    rw [if_pos (by omega)]
  case h i =>
    iterate 5 rw [if_neg (by omega)]
    rw [if_pos (by omega), ofNat_byte_div_four _ _ i hk]
  case block i =>
    iterate 6 rw [if_neg (by omega)]
    rw [if_pos (by omega), ofNat_byte_div_four _ _ i hk]
  case target i =>
    iterate 7 rw [if_neg (by omega)]
    rw [if_pos (by omega), ofNat_byte_div_four _ _ i hk]

/-! ### Host accesses to the registers (R52, R53) -/

/-- No register reads the inputs to come. -/
@[simp] theorem State.readReg_with_inputs (s : State) (rest : List Input) (r : Reg) :
    ({ s with inputs := rest } : State).readReg r = s.readReg r := by cases r <;> rfl

theorem step_access_idle {s : State} {a : Access} {hold : Nat} {rest : List Input} (hidle : s.eng = .idle)
    (hin : s.inputs = .access a hold :: rest) : step s = hostAccess a hold { s with inputs := rest } := by
  rw [step_idle hidle, takeInput_access hin]

theorem step_access_busy {s : State} {i : Instr} {left : Nat} {a : Access} {hold : Nat} {rest : List Input}
    (hbusy : s.eng = .busy i (left + 1)) (hin : s.inputs = .access a hold :: rest) :
    step s = hostAccess a hold { s with eng := .busy i left, inputs := rest } := by
  rw [step_busy hbusy, takeInput_access (by exact hin)]

/-- A register lies at its own offset. -/
@[simp] theorem classify_regOffset (msgBytes : Nat) (r : Reg) :
    classify msgBytes (BitVec.ofNat 13 r.offset) = .reg r := classify_offset msgBytes r (k := 0) (by omega)

/-- A 4-byte access to a register of an idle block passes the checks of R52. -/
theorem accessError_register {s : State} (hidle : s.eng = .idle) (kind : AccessKind) (r : Reg) (data : Word) :
    accessError s ⟨kind, BitVec.ofNat 13 r.offset, .four, data⟩ = none := by
  have hn : (BitVec.ofNat 13 r.offset).toNat = r.offset := r.offset_add_toNat (k := 0) (by omega)
  simp [accessError_eq_none_iff, badlyFormed, hn, r.offset_mod_four, hidle]

/-- A 4-byte write to STATUS passes the checks of R52, idle or busy (R236). -/
theorem accessError_statusWrite (s : State) (v : Word) : accessError s ⟨.write, 0x004, .four, v⟩ = none := by
  rw [accessError_eq_none_iff, classify_status]
  exact ⟨nofun, by simp [badlyFormed], by simp⟩

/-- A STATUS write, idle or busy, is a clear of the error record where bit 1 is set (R23, R214, R236). -/
theorem hostAccess_statusWrite (s : State) (v : Word) (hold : Nat) :
    hostAccess ⟨.write, 0x004, .four, v⟩ hold s = .next (s.writeStatus v) :=
  hostAccess_reg (accessError_statusWrite s v) rfl (classify_status _) nofun hold

/-- A STATUS write changes the error record alone. -/
theorem State.writeStatus_eq (s : State) (v : Word) :
    s.writeStatus v = { s with
      status := if v.getLsbD 1 = true then { s.status with err := false, errCode := 0x00 } else s.status } := by
  unfold writeStatus Status.clear; split <;> rfl

/-- The register written holds the data (R53). -/
theorem State.readReg_writeReg_same (s : State) (v : Word) {r : Reg} (hcmd : r ≠ .cmd) (hstatus : r ≠ .status) :
    (s.writeReg v r).readReg r = v := by
  cases r with
  | cmd => exact absurd rfl hcmd
  | status => exact absurd rfl hstatus
  | nonceLo | nonceHi | h i | block i | target i => simp [writeReg, readReg]

/-- A write to a register other than STATUS leaves every other register alone (R53). -/
theorem State.readReg_writeReg_other (s : State) (v : Word) {r r' : Reg} (hstatus : r ≠ .status) (h : r' ≠ r) :
    (s.writeReg v r).readReg r' = s.readReg r' := by
  cases r with
  | cmd => rfl
  | status => exact absurd rfl hstatus
  | nonceLo =>
    cases r' with
    | nonceLo => exact absurd rfl h
    | nonceHi => exact nonceHi_nonceOf _ _
    | _ => rfl
  | nonceHi =>
    cases r' with
    | nonceLo => exact nonceLo_nonceOf _ _
    | nonceHi => exact absurd rfl h
    | _ => rfl
  | h i =>
    cases r' with
    | h j => exact Vector.getElem_set_ne i.isLt j.isLt fun hij => h (by rw [Fin.ext hij])
    | _ => rfl
  | block i =>
    cases r' with
    | block j => exact Vector.getElem_set_ne i.isLt j.isLt fun hij => h (by rw [Fin.ext hij])
    | _ => rfl
  | target i =>
    cases r' with
    | target j => exact Vector.getElem_set_ne i.isLt j.isLt fun hij => h (by rw [Fin.ext hij])
    | _ => rfl

/-! ### STATUS (R23) -/

/-- Two fields side by side as a number. -/
theorem append_toNat {m n : Nat} (x : BitVec m) (y : BitVec n) : (x ++ y).toNat = x.toNat * 2 ^ n + y.toNat := by
  rw [BitVec.toNat_append, ← Nat.shiftLeft_add_eq_or_of_lt y.isLt, Nat.shiftLeft_eq]

/-- STATUS as a number: each field at its place. -/
theorem statusWordOf_toNat (busy err le found exh : Bool) (errCode : Byte) :
    (statusWordOf busy err le found exh errCode).toNat =
      errCode.toNat * 2 ^ 8 + exh.toNat * 2 ^ 4 + found.toNat * 2 ^ 3 + le.toNat * 2 ^ 2 + err.toNat * 2 + busy.toNat := by
  simp only [statusWordOf, append_toNat, BitVec.toNat_ofBool, BitVec.toNat_ofNat]
  omega

/-- The five flags of STATUS. -/
theorem statusWordOf_flags (busy err le found exh : Bool) (errCode : Byte) :
    let w := statusWordOf busy err le found exh errCode
    w.getLsbD 0 = busy ∧ w.getLsbD 1 = err ∧ w.getLsbD 2 = le ∧ w.getLsbD 3 = found ∧ w.getLsbD 4 = exh := by
  simp only [statusWordOf, BitVec.getLsbD_append]
  simp

/-- ERRCODE and the two reserved fields of STATUS. -/
theorem statusWordOf_fields (busy err le found exh : Bool) (errCode : Byte) :
    let w := statusWordOf busy err le found exh errCode
    w.extractLsb' 5 3 = 0 ∧ w.extractLsb' 8 8 = errCode ∧ w.extractLsb' 16 16 = 0 := by
  have := busy.toNat_lt; have := err.toNat_lt
  have := le.toNat_lt; have := found.toNat_lt; have := exh.toNat_lt; have := errCode.isLt
  refine ⟨?_, BitVec.eq_of_toNat_eq ?_, ?_⟩ <;> simp only [field_eq_zero, field_toNat, statusWordOf_toNat] <;> omega

/-- Bit 0 of STATUS is BUSY (R32). -/
theorem State.statusWord_bit_zero (s : State) : s.statusWord.getLsbD 0 = true ↔ s.eng ≠ .idle := by
  rw [State.statusWord, (statusWordOf_flags ..).1, State.busy, decide_eq_true_iff]

/-! ### The issue of a command (R89) -/

/-- A CMD write on an idle block issues its command, the input taken (R22). -/
theorem step_cmdWrite {s : State} {c : Word} {hold : Nat} {rest : List Input} (hidle : s.eng = .idle)
    (hin : s.inputs = .access (cmdWriteAccess c) hold :: rest) :
    step s = commandWrite c hold { s with inputs := rest } := by
  rw [step_access_idle hidle hin, hostAccess_cmdWrite (by exact hidle)]

/-! ### The nonce a SEARCH ends at (R176, R181) -/

/-- A nonce found is one of those tried. -/
theorem searchFrom_le {p : List Byte} {w : Nat} {t : List Byte} {left n k : Nat}
    (h : searchFrom p w t left n = some k) : k ≤ n + left := by
  induction left generalizing n with
  | zero =>
    simp only [searchFrom] at h
    split at h <;> cases h
    omega
  | succ left ih =>
    simp only [searchFrom] at h
    split at h
    · cases h; omega
    · have := ih h; omega

/-- The last nonce of a SEARCH has W bytes. -/
theorem lastNonce_lt (p : List Byte) (w : Nat) (target : Words8) : lastNonce p w target < 2 ^ (8 * w) := by
  have hpos : 0 < 2 ^ (8 * w) := Nat.two_pow_pos _
  unfold lastNonce
  cases h : searchResult p w (wordsBytes target) with
  | none => simp only [Option.getD_none]; omega
  | some k => have := searchFrom_le h; simp only [Option.getD_some]; omega

/-- A nonce of at most 8 bytes fits NONCE (R10, R24). -/
theorem toNat_ofNat_nonce {w n : Nat} (hw : w ≤ 8) (h : n < 2 ^ (8 * w)) : (BitVec.ofNat 64 n).toNat = n := by
  have : 2 ^ (8 * w) ≤ 2 ^ 64 := Nat.pow_le_pow_right (by omega) (by omega)
  rw [BitVec.toNat_ofNat]; omega

/-- The comparator as a comparison of numbers (R171). -/
theorem lessOrEqual_eq_decide (d t : List Byte) : lessOrEqual d t = decide (numberOf d ≤ numberOf t) := rfl

/-- The nonce field just written is read back (R61). -/
theorem readBytes_nonceField (msg : Memory) (plen w n : Nat) :
    (msg.writeBytes plen (leBytes w n)).readBytes plen w = some (leBytes w n) := by
  simpa using Memory.readBytes_writeBytes_same (leBytes w n) msg plen

/-- Writing the nonce field leaves every other byte alone (R61). -/
theorem agreesOutside_nonceField (msg : Memory) (plen w n : Nat) :
    Memory.agreesOutside (msg.writeBytes plen (leBytes w n)) msg plen w := fun a ha =>
  Memory.read_writeBytes_outside _ _ _ _ (by simpa using ha)

/-! ### Where a command stops (R62, R233) -/

/-- A byte a command reads is unwritten exactly where the run of them has no value. -/
theorem State.ready_eq_false_iff (s : State) (i : Instr) :
    s.ready i = false ↔ s.msg.readBytes 0 (readsUpTo i) = none := by
  simp [ready, written]

theorem State.ready_iff (s : State) (i : Instr) : s.ready i = true ↔ ∃ m, s.msg.readBytes 0 (readsUpTo i) = some m := by
  rw [ready, written, Option.isSome_iff_exists]

/-- A command whose bytes are written completes (R233). -/
theorem exec_next_of_ready {s : State} {i : Instr} (hi : issueError s i = none) (h : s.ready i = true) :
    ∃ t, exec i s = .next t := by
  obtain ⟨m, hm⟩ := (s.ready_iff i).1 h
  cases i with
  | nop => exact ⟨_, exec_nop s⟩
  | init => exact ⟨_, exec_init s⟩
  | compress => exact ⟨_, exec_compress s⟩
  | compare => exact ⟨_, exec_compare s⟩
  | digest len => exact ⟨_, execDigest_of_message hi hm⟩
  | digest2 len => exact ⟨_, execDigest2_of_message hi hm⟩
  | tryNonce plen w => exact ⟨_, execTry_of_trial hi (runTrial_of_prefix _ _ _ hm)⟩
  | search plen w => obtain ⟨_, -, h⟩ := execSearch_of_prefix hi hm; exact ⟨_, h⟩
  | reserved opc x => exact ⟨_, exec_reserved opc x s⟩

/-- A command one of whose bytes is unwritten stops with the fault (R62, U3). -/
theorem exec_fault_of_not_ready {s : State} {i : Instr} (hi : issueError s i = none) (h : s.ready i = false) :
    exec i s = .fault .unwrittenMessageByte := by
  have hm := (s.ready_eq_false_iff i).1 h
  cases i with
  | nop | init | compress | compare | reserved opc x => simp [readsUpTo, Memory.readBytes] at hm
  | digest len => simp only [readsUpTo] at hm; simp [exec, execDigest, issue_of_ok hi, hm]
  | digest2 len => simp only [readsUpTo] at hm; simp [exec, execDigest2, issue_of_ok hi, hm]
  | tryNonce plen w =>
    have hr := (runTrial_eq_none_iff s.target plen w s.nonce.toNat s.msg).2 hm
    simp [exec, execTry, issue_of_ok hi, hr]
  | search plen w =>
    have hl := (searchLoop_eq_none_iff s.target plen w (2 ^ (8 * w) - 1) 0 s.msg).2 hm
    simp [exec, execSearch, issue_of_ok hi, hl]

/-- An accepted command on two states does the same where its effect does. -/
theorem issue_congr {i : Instr} {s t : State} {f : State → Host.Outcome State Fault Refusal}
    (hs : issueError s i = none) (ht : issueError t i = none) (h : f (s.accept i) = f (t.accept i)) :
    issue i s f = issue i t f := by
  rw [issue_of_ok hs, issue_of_ok ht, h]

/-! ### What a command leaves unchanged (R61, R85) -/

/-- A byte of MSG outside the nonce field of a TRY or SEARCH reads after an accepted command as before (R61). -/
theorem exec_msg_outside {i : Instr} {s t : State} (hi : issueError s i = none) (ht : exec i s = .next t) :
    Memory.agreesOutside t.msg s.msg (storedField i).1 (storedField i).2 := by
  obtain ⟨_, _, _, _, msg, rfl, -, -, -, rfl | ⟨plen, w, hf, keeps⟩⟩ := exec_accepted_cases hi ht
  · exact fun _ _ => rfl
  · have hfield : storedField i = (plen, w) := by rcases hf with rfl | rfl <;> rfl
    rw [hfield]
    exact keeps (Memory.agreesOutside · s.msg plen w)
      (fun m n hm a ha => (agreesOutside_nonceField m plen w n a ha).trans (hm a ha)) fun _ _ => rfl

/-! ### The internal state (R34) -/

/-- A meaning that gives the same with any other internal state, but for the internal state. -/
def IgnoresInternal (f : State → Host.Outcome State Fault Refusal) : Prop :=
  ∀ (s : State) (n : Internal), mapNext State.visible (f { s with internal := n }) = mapNext State.visible (f s)

theorem exec_ignoresInternal (i : Instr) : IgnoresInternal (exec i) := by
  intro s n
  have hcongr : issueError { s with internal := n } i = issueError s i := issueError_congr rfl rfl i
  cases hi : issueError s i with
  | some e => rw [exec_of_error (hcongr.trans hi), exec_of_error hi]; rfl
  | none =>
    cases i with
    | nop | init | compress | compare | reserved opc x => rfl
    | digest len =>
      simp only [exec, execDigest, issue_of_ok hi, issue_of_ok (hcongr.trans hi), State.accept_msg]
      cases s.msg.readBytes 0 len <;> rfl
    | digest2 len =>
      simp only [exec, execDigest2, issue_of_ok hi, issue_of_ok (hcongr.trans hi), State.accept_msg]
      cases s.msg.readBytes 0 len <;> rfl
    | tryNonce plen w =>
      simp only [exec, execTry, issue_of_ok hi, issue_of_ok (hcongr.trans hi), State.accept_msg, State.accept_target,
        State.accept_nonce]
      cases runTrial s.target plen w s.nonce.toNat s.msg <;> rfl
    | search plen w =>
      simp only [exec, execSearch, issue_of_ok hi, issue_of_ok (hcongr.trans hi), State.accept_msg, State.accept_target]
      cases searchLoop s.target plen w (2 ^ (8 * w) - 1) 0 s.msg <;> rfl

theorem commandWrite_ignoresInternal (c : Word) (hold : Nat) : IgnoresInternal (commandWrite c hold) := by
  intro s n
  cases hd : decode c with
  | error e => cases e; rw [commandWrite_rejected hd, commandWrite_rejected hd]; rfl
  | ok i =>
    cases hold with
    | zero => rw [commandWrite_now hd, commandWrite_now hd]; exact exec_ignoresInternal i s n
    | succ k =>
      have hcongr : issueError { s with internal := n } i = issueError s i := issueError_congr rfl rfl i
      cases hi : issueError s i with
      | some e => rw [commandWrite_error hd hi, commandWrite_error hd (hcongr.trans hi)]; rfl
      | none => rw [commandWrite_held hd hi, commandWrite_held hd (hcongr.trans hi)]; rfl

/-- The updates of a host access give, with any other internal state, a state alike in all but the internal state. -/
theorem State.writeReg_visible (s : State) (n : Internal) (v : Word) (r : Reg) :
    (({ s with internal := n } : State).writeReg v r).visible = (s.writeReg v r).visible := by
  cases r with
  | status => simp only [writeReg, writeStatus_eq]; rfl
  | _ => rfl

theorem State.writeMsg_visible (s : State) (n : Internal) (a : Nat) (size : AccessSize) (v : Word) :
    (({ s with internal := n } : State).writeMsg a size v).visible = (s.writeMsg a size v).visible := by
  cases size <;> rfl

theorem State.refuseAccess_visible (s : State) (n : Internal) (a : Access) (e : CmdError) :
    (({ s with internal := n } : State).refuseAccess a e).visible = (s.refuseAccess a e).visible := by
  unfold refuseAccess; cases a.kind <;> rfl

theorem hostAccess_ignoresInternal (a : Access) (hold : Nat) : IgnoresInternal (hostAccess a hold) := by
  intro s n
  have hcongr : accessError { s with internal := n } a = accessError s a := rfl
  cases he : accessError s a with
  | some e =>
    rw [hostAccess_of_error he, hostAccess_of_error (hcongr.trans he)]
    exact congrArg Host.Outcome.next (s.refuseAccess_visible n a e)
  | none =>
    have he' := hcongr.trans he
    cases hk : a.kind with
    | read => rw [hostAccess_read he hk, hostAccess_read he' hk]; rfl
    | write =>
      cases hc : classify s.msgBytes a.off with
      | unmapped => exact absurd hc ((accessError_eq_none_iff s a).1 he).1
      | msg x =>
        rw [hostAccess_msg he hk hc, hostAccess_msg he' hk hc]
        exact congrArg Host.Outcome.next (s.writeMsg_visible n x a.size a.data)
      | reg r =>
        by_cases hr : r = .cmd
        · subst hr
          rw [hostAccess_cmd he hk hc, hostAccess_cmd he' hk hc]
          exact commandWrite_ignoresInternal a.data hold s n
        · rw [hostAccess_reg he hk hc hr, hostAccess_reg he' hk hc hr]
          exact congrArg Host.Outcome.next (s.writeReg_visible n a.data r)

theorem takeInput_ignoresInternal : IgnoresInternal takeInput := by
  intro s n
  obtain ⟨l, hin⟩ : ∃ l, s.inputs = l := ⟨_, rfl⟩
  cases l with
  | nil => rw [takeInput_nil hin, takeInput_nil (by exact hin)]; rfl
  | cons x rest =>
    cases x with
    | reset => rw [takeInput_reset hin, takeInput_reset (by exact hin)]; rfl
    | access a hold =>
      rw [takeInput_access hin, takeInput_access (by exact hin)]
      exact hostAccess_ignoresInternal a hold { s with inputs := rest } n

theorem step_ignoresInternal : IgnoresInternal step := by
  intro s n
  obtain ⟨eng, heng⟩ : ∃ eng, s.eng = eng := ⟨_, rfl⟩
  cases eng with
  | idle => rw [step_idle heng, step_idle (by exact heng)]; exact takeInput_ignoresInternal s n
  | busy i left =>
    cases left with
    | zero =>
      rw [step_complete heng, step_complete (by exact heng)]
      exact exec_ignoresInternal i { s with eng := .idle } n
    | succ left =>
      rw [step_busy heng, step_busy (by exact heng)]
      exact takeInput_ignoresInternal { s with eng := .busy i left } n

/-! ### The statements -/

/-- Settles O6, by the cases of the issue: accepted with inputs before the completion, or refused by a check. -/
theorem acceptedCommandIsBusy : Obligations.AcceptedCommandIsBusy := by
  intro s c i hold rest hidle hin hd
  have hcongr : issueError { s with inputs := rest } i = issueError s i := issueError_congr rfl rfl i
  rw [step_cmdWrite hidle hin]
  refine ⟨fun hi hpos => ?_, fun e he => commandWrite_error hd (hcongr.trans he) hold⟩
  obtain ⟨k, rfl⟩ := Nat.exists_eq_add_one_of_ne_zero hpos.ne'
  obtain ⟨-, henc⟩ := wf_and_encode_of_decode hd
  refine ⟨_, commandWrite_held hd (hcongr.trans hi) k, ?_, ?_⟩
  · rw [← henc]; rfl
  · rw [State.statusWord_bit_zero]; nofun

/-- Settles O16: the offset of each register lies in its range of the register map. -/
theorem registersLieAtTheirOffsets : Obligations.RegistersLieAtTheirOffsets := fun msgBytes r _ hk =>
  classify_offset msgBytes r hk

/-- Settles O17: the access passes its checks and writes the register, and every other register reads as before. -/
theorem registerWriteSetsThatRegister : Obligations.RegisterWriteSetsThatRegister := by
  intro s r data hold rest hidle hcmd hstatus hin
  have herr := accessError_register (s := { s with inputs := rest }) hidle .write r data
  obtain ⟨hmsg, heng, hsize, hinputs, -, hinternal, hread, -, -⟩ := State.writeReg_keeps { s with inputs := rest } data r
  refine ⟨State.writeReg { s with inputs := rest } data r, ?_, State.readReg_writeReg_same _ _ hcmd hstatus, fun r' hr' => ?_,
    hmsg, heng.trans hidle, hsize, hinputs, hread, hinternal⟩
  · rw [step_access_idle hidle hin, hostAccess_reg herr rfl (classify_regOffset _ r) hcmd]
  · rw [State.readReg_writeReg_other _ _ hstatus hr', State.readReg_with_inputs]

/-- Settles O18: the access passes its checks and is an accepted read of the register. -/
theorem registerReadReturnsItsValue : Obligations.RegisterReadReturnsItsValue := by
  intro s r data hold rest hidle hin
  have herr := accessError_register (s := { s with inputs := rest }) hidle .read r data
  refine ⟨_, by rw [step_access_idle hidle hin, hostAccess_read herr rfl], ?_, rfl⟩
  rw [State.hostRead_readData, if_neg (by simp [State.busy, hidle]), classify_regOffset]
  exact s.readReg_with_inputs rest r

/-- Settles O19: the fields of STATUS, BUSY read from the engine. -/
theorem statusWordFields : Obligations.StatusWordFields := by
  intro s
  obtain ⟨-, herr, hle, hfound, hexh⟩ := statusWordOf_flags s.busy s.status.err s.status.le s.status.found s.status.exh
    s.status.errCode
  obtain ⟨hlow, hcode, hhigh⟩ := statusWordOf_fields s.busy s.status.err s.status.le s.status.found s.status.exh
    s.status.errCode
  exact ⟨s.statusWord_bit_zero, herr, hle, hfound, hexh, hlow, hcode, hhigh⟩

/-- Settles O20: idle or busy, the write passes its checks and changes the error record alone. -/
theorem statusWriteClearsTheError : Obligations.StatusWriteClearsTheError := by
  intro s v hold rest hin
  refine ⟨fun hidle => ?_, fun i left hbusy => ?_⟩
  · rw [step_access_idle hidle hin, hostAccess_statusWrite, State.writeStatus_eq]
  · rw [step_access_busy hbusy hin, hostAccess_statusWrite, State.writeStatus_eq]

/-- Settles O45: a LEN within MSG_BYTES passes the check, and the message is written. -/
theorem digestCompletes : Obligations.DigestCompletes := fun _ _ _ hlen hm =>
  ⟨_, execDigest_of_message ((lenError_eq_none_iff _ _).2 hlen) hm, rfl⟩

/-- Settles O46, as O45; D1 holds the 32 bytes of the first digest. -/
theorem digestTwiceCompletes : Obligations.DigestTwiceCompletes := fun _ _ m hlen hm =>
  ⟨_, execDigest2_of_message ((lenError_eq_none_iff _ _).2 hlen) hm,
    firstOf_toList_of_length (wordsBytes_length (digestState m)) 0, rfl⟩

/-- Settles O47: the trial of TRY is the pure trial on the bytes before the nonce field, which are written. -/
theorem tryCompletes : Obligations.TryCompletes := by
  intro s plen w p hw hw' hle hnonce hp cand
  have hi := (issueError_tryNonce_eq_none_iff s plen w).2 ⟨⟨hw, hw', hle⟩, hnonce⟩
  refine ⟨_, execTry_of_trial hi (runTrial_of_prefix s.target w s.nonce.toNat hp), ?_,
    readBytes_nonceField s.msg plen w s.nonce.toNat, agreesOutside_nonceField s.msg plen w s.nonce.toNat⟩
  simp only [lessOrEqual_eq_decide, candidate, cand, Status.setLe]; rfl

/-- Settles O48: SEARCH ends at the last nonce of the reference search, which fits NONCE. -/
theorem searchCompletes : Obligations.SearchCompletes := by
  intro s plen w p hw hw' hle hp r n
  have hn : n < 2 ^ (8 * w) := lastNonce_lt p w s.target
  obtain ⟨msg, hout, ht⟩ := execSearch_of_prefix ((candidateError_eq_none_iff _ _ _).2 ⟨hw, hw', hle⟩) hp
  refine ⟨_, ht, ?_, toNat_ofNat_nonce hw' hn, readBytes_nonceField msg plen w n, fun a ha => ?_⟩
  · simp only [Status.setSearchResult, Option.not_isSome]; rfl
  · exact (agreesOutside_nonceField msg plen w n a ha).trans (hout a ha)

/-- Settles O51: a command completes where its bytes are written and stops with the fault where one is not. -/
theorem onlyUnwrittenBytesStopACommand : Obligations.OnlyUnwrittenBytesStopACommand := by
  intro s i hi
  cases hr : s.ready i with
  | true =>
    obtain ⟨t, ht⟩ := exec_next_of_ready hi hr
    simp [ht]
  | false => simp [exec_fault_of_not_ready hi hr]

/-- Settles O52: a refused command records its error; an accepted one does one of the things `exec_accepted_cases`
names. -/
theorem commandFrame : Obligations.CommandFrame := by
  intro i s t ht
  cases hi : issueError s i with
  | some e =>
    rw [exec_of_error hi] at ht
    cases ht
    refine ⟨rfl, rfl, rfl, rfl, rfl, rfl, rfl, fun _ _ => rfl, ?_, ?_, fun _ => rfl, ?_, nofun⟩
    · exact fun _ => ⟨rfl, Status.record_found .., Status.record_exh ..⟩
    · exact fun _ => ⟨rfl, fun _ => Status.record_le ..⟩
    · rintro _ ⟨⟩; rfl
  | none =>
    have hout := exec_msg_outside hi ht
    obtain ⟨h', n, st, nonce, msg, rfl, hst, hnonce, hh, hmsg⟩ := exec_accepted_cases hi ht
    refine ⟨rfl, rfl, rfl, rfl, rfl, rfl, rfl, hout, fun hs => ?_, fun hs => ?_, hh, nofun, fun _ => ⟨rfl, ?_⟩⟩
    · refine ⟨hnonce.resolve_right fun ⟨plen, w, h⟩ => hs plen w h, ?_⟩
      rcases hst with ⟨rfl, -⟩ | ⟨b, rfl, -⟩ | ⟨-, -, plen, w, h⟩
      · exact ⟨rfl, rfl⟩
      · exact ⟨rfl, rfl⟩
      · exact absurd h (hs plen w)
    · refine ⟨hmsg.resolve_right fun ⟨plen, w, h, _⟩ => h.elim (hs plen w).2 (hs plen w).1, fun hc => ?_⟩
      rcases hst with ⟨rfl, -⟩ | ⟨-, -, h | ⟨plen, w, h⟩⟩ | ⟨-, -, plen, w, h⟩
      · rfl
      · exact absurd h hc
      · exact absurd h (hs plen w).2
      · exact absurd h (hs plen w).1
    · rcases hst with ⟨rfl, -⟩ | ⟨b, rfl, -⟩ | ⟨b, rfl, -⟩ <;> exact ⟨rfl, rfl⟩

/-- Settles O53: the effect of each of the four commands overwrites H, and that of SEARCH NONCE, without a look at it. -/
theorem earlierChainingStateIsNotRead : Obligations.EarlierChainingStateIsNotRead := by
  intro s h n len plen w
  refine ⟨fun hi => ?_, fun hi => ?_, fun hi => ?_, fun hi => ?_⟩
  · simp only [exec, execDigest]; exact issue_congr (by exact hi) hi rfl
  · simp only [exec, execDigest2]; exact issue_congr (by exact hi) hi rfl
  · simp only [exec, execTry]; exact issue_congr (by exact hi) hi rfl
  · simp only [exec, execSearch]; exact issue_congr (by exact hi) hi rfl

/-- Settles O54: no part of a step reads the internal state before it writes it. -/
theorem internalStateIsNotObservable : Obligations.InternalStateIsNotObservable := step_ignoresInternal

/-- Settles O5: the CMD write of a decoded word is its `exec`, and so is the completion. -/
theorem stepRunsTheCommand : Obligations.StepRunsTheCommand := by
  refine ⟨fun s c i rest hidle hin hd => ?_, fun s w i hd => ?_, fun s i hbusy => step_complete hbusy⟩
  · rw [step_cmdWrite hidle hin, commandWrite_now hd]
  · have hw : BitVec.ofNat 32 (w % 2 ^ 32) = BitVec.ofNat 32 w := BitVec.eq_of_toNat_eq (by simp)
    rw [State.withFetchWord, hw, step_cmdWrite (State.aboutToIssue_eng ..) (State.aboutToIssue_inputs ..),
      commandWrite_now hd]
    rfl

/-- Settles O41: NOP is its acceptance alone. -/
theorem nopCompletes : Obligations.NopCompletes := exec_nop

/-- Settles O42: `initialChaining` is the IV of R112. -/
theorem initLoadsIv : Obligations.InitLoadsIv := exec_init

/-- Settles O43, from COMPRESS in full. -/
theorem compressCompletes : Obligations.CompressCompletes := fun s => ⟨_, exec_compress s, rfl⟩

/-- Settles O44: the comparator is the comparison of the two numbers. -/
theorem compareSetsLe : Obligations.CompareSetsLe := exec_compare

end Sys2Proof.Machine

/-! PROOFS. Host accesses to MSG, refused accesses and reads (spec 20_memory.md R51 to R57, R61, 60_exceptions.md R212,
R213), and that a command with host accesses before its completion ends as at one instant (70_reset_and_hazards.md R234,
R236, R238). -/

namespace Sys2Proof

/-! ### The word of a command decodes to it (R89) -/

/-- Format L takes back the length it holds (R82). -/
theorem decodeL_encodeL (opc : BitVec 8) {len : Nat} (h : Instr.lenFits len = true) (f : Nat → Instr) :
    decodeL (encodeL opc len) f = .ok (f len) := by
  rw [Instr.lenFits, decide_eq_true_eq] at h
  have hn := encodeL_toNat opc (len := len) (by omega)
  have hzero : (encodeL opc len).extractLsb' 16 8 = 0 := by rw [field_eq_zero, hn]; omega
  have hlen : ((encodeL opc len).extractLsb' 0 16).toNat = len := by rw [field_toNat, hn]; omega
  rw [decodeL, if_pos hzero, hlen]

/-- Format S takes back the PLEN and the W it holds (R83). -/
theorem decodeS_encodeS (opc : BitVec 8) {plen w : Nat} (h : Instr.searchFits plen w = true) (f : Nat → Nat → Instr) :
    decodeS (encodeS opc plen w) f = .ok (f plen w) := by
  rw [Instr.searchFits, Bool.and_eq_true, decide_eq_true_eq, decide_eq_true_eq] at h
  have hn := encodeS_toNat opc (plen := plen) (w := w) (by omega) (by omega)
  have hzero : (encodeS opc plen w).extractLsb' 20 4 = 0 := by rw [field_eq_zero, hn]; omega
  have hplen : ((encodeS opc plen w).extractLsb' 0 16).toNat = plen := by rw [field_toNat, hn]; omega
  have hw : ((encodeS opc plen w).extractLsb' 16 4).toNat = w := by rw [field_toNat, hn]; omega
  rw [decodeS, if_pos hzero, hplen, hw]

/-- The word of a well-formed command decodes to that command (R89, R90). -/
theorem decode_encode {i : Instr} (h : i.wf = true) : decode (encode i) = .ok i := by
  cases i with
  | nop | init | compress | compare => decide
  | digest len => exact (decode_digest (Laws.OpcodeField.digest len h)).trans (decodeL_encodeL _ h _)
  | digest2 len => exact (decode_digest2 (Laws.OpcodeField.digest2 len h)).trans (decodeL_encodeL _ h _)
  | tryNonce plen w => exact (decode_tryNonce (Laws.OpcodeField.tryNonce plen w h)).trans (decodeS_encodeS _ h _)
  | search plen w => exact (decode_search (Laws.OpcodeField.search plen w h)).trans (decodeS_encodeS _ h _)
  | reserved opc x =>
    have hopc := Laws.OpcodeField.reserved opc x h
    have hx : (encode (.reserved opc x)).extractLsb' 0 24 = x := BitVec.extractLsb'_append_eq_right
    rw [decode_reserved (hopc ▸ of_decide_eq_true h), BitVec.eq_of_toNat_eq hopc, hx]

end Sys2Proof

namespace Sys2Proof.Machine

/-! ### Refused accesses (R52, R55) -/

/-- The checks of an access read MSG_BYTES and whether the engine is busy (R52). -/
theorem accessError_congr {s t : State} (hsize : s.msgBytes = t.msgBytes) (hidle : s.eng = .idle ↔ t.eng = .idle)
    (a : Access) : accessError s a = accessError t a := by
  simp only [accessError, hsize, ne_eq, hidle]

/-- An access meets the same checks whatever the inputs after it. -/
theorem accessError_with_inputs (s : State) (rest : List Input) (a : Access) :
    accessError { s with inputs := rest } a = accessError s a := rfl

/-- The count of inputs before the completion is no part of the checks. -/
theorem accessError_of_busy {s : State} {i : Instr} {left : Nat} (hbusy : s.eng = .busy i (left + 1))
    (rest : List Input) (a : Access) :
    accessError { s with eng := .busy i left, inputs := rest } a = accessError s a :=
  accessError_congr (s := { s with eng := .busy i left, inputs := rest }) (t := s) rfl (by simp [hbusy]) a

/-- A refused access in full: the error record, and 0 for what a read returns (R55). -/
theorem State.refuseAccess_eq (s : State) (a : Access) (e : CmdError) :
    s.refuseAccess a e = { s with
      status := s.status.record e.code, readData := if a.kind = .read then 0 else s.readData } := by
  unfold refuseAccess; cases a.kind <;> rfl

/-! ### Accesses to MSG (R51, R54) -/

/-- An access to MSG of an idle block passes the checks of R52 where it is one byte, or four at a multiple of 4. -/
theorem accessError_msg {s : State} {a : Nat} {size : AccessSize} (hidle : s.eng = .idle) (hm : s.msgBytes ≤ 4096)
    (ha : a < s.msgBytes) (hsize : size = .one ∨ size = .four ∧ a % 4 = 0) (kind : AccessKind) (data : Word) :
    accessError s ⟨kind, BitVec.ofNat 13 (0x1000 + a), size, data⟩ = none := by
  rw [accessError_eq_none_iff, classify_msg ha hm]
  refine ⟨nofun, ?_, fun h => h.2.1 hidle⟩
  rcases hsize with rfl | ⟨rfl, halign⟩
  · rfl
  · simpa [badlyFormed] using halign

/-- An accepted write to MSG of an idle block (R54). -/
theorem step_msgWrite {s : State} {a hold : Nat} {size : AccessSize} {data : Word} {rest : List Input}
    (hidle : s.eng = .idle) (hm : s.msgBytes ≤ 4096) (ha : a < s.msgBytes)
    (hsize : size = .one ∨ size = .four ∧ a % 4 = 0)
    (hin : s.inputs = .access ⟨.write, BitVec.ofNat 13 (0x1000 + a), size, data⟩ hold :: rest) :
    step s = .next (State.writeMsg { s with inputs := rest } a size data) := by
  have herr := accessError_msg (s := { s with inputs := rest }) hidle hm ha hsize .write data
  rw [step_access_idle hidle hin, hostAccess_msg herr rfl (classify_msg ha hm)]

/-- An accepted read of MSG of an idle block gives the host the value of R54. -/
theorem step_msgRead {s : State} {a hold : Nat} {size : AccessSize} {data : Word} {rest : List Input}
    (hidle : s.eng = .idle) (hm : s.msgBytes ≤ 4096) (ha : a < s.msgBytes)
    (hsize : size = .one ∨ size = .four ∧ a % 4 = 0)
    (hin : s.inputs = .access ⟨.read, BitVec.ofNat 13 (0x1000 + a), size, data⟩ hold :: rest) :
    ∃ t, step s = .next t ∧ t.readData = s.idleReadValue (.msg a) size := by
  have herr := accessError_msg (s := { s with inputs := rest }) hidle hm ha hsize .read data
  refine ⟨_, by rw [step_access_idle hidle hin, hostAccess_read herr rfl], ?_⟩
  rw [State.hostRead_readData, if_neg (by simp [State.busy, hidle]), classify_msg ha hm]
  cases size <;> rfl

/-- Byte `k` of a bus value is its bits [8k+7:8k] (R54). -/
theorem busBytes_getElem (v : Word) {k : Nat} (h : k < (busBytes v).length) :
    (busBytes v)[k] = v.extractLsb' (8 * k) 8 := by
  match k, h with
  | 0, _ | 1, _ | 2, _ | 3, _ => rfl

/-- Bits [8k+7:8k] of a word packed from four bytes are byte `k`, counted from the least significant (R15). -/
theorem extractLsb'_be32 (f : Nat → Byte) {k : Nat} (h : k < 4) :
    (be32 (f 3) (f 2) (f 1) (f 0)).extractLsb' (8 * k) 8 = f k := by
  have hbytes := be32bytes_be32 (f 3) (f 2) (f 1) (f 0)
  simp only [be32bytes, List.cons.injEq, and_true] at hbytes
  obtain ⟨h3, h2, h1, h0⟩ := hbytes
  match k, h with
  | 0, _ => exact h0
  | 1, _ => exact h1
  | 2, _ => exact h2
  | 3, _ => exact h3

/-- A host read of a written byte sees that byte (R54). -/
theorem State.hostByte_of_written {s : State} {a : Nat} {b : Byte} (h : s.msg.read a = some b) (k : Nat) :
    s.hostByte a k = b := by simp [hostByte, h]

/-! ### What a command does, but for what host accesses alone leave behind (R238) -/

/-- A recorded error is no part of the command's view. -/
theorem State.raise_commandView (s : State) (e : CmdError) : (s.raise e).commandView = s.commandView := by
  unfold raise Status.record; split <;> rfl

theorem State.refuseAccess_commandView (s : State) (a : Access) (e : CmdError) :
    (s.refuseAccess a e).commandView = s.commandView := by
  rw [← s.raise_commandView e]; unfold refuseAccess; cases a.kind <;> rfl

theorem State.writeStatus_commandView (s : State) (v : Word) : (s.writeStatus v).commandView = s.commandView := by
  rcases s.writeStatus_cases v with h | h <;> rw [h]; rfl

/-- A host access while the engine is busy is refused, a read or a STATUS write: nothing a command depends on changes
(R235, R236). -/
theorem hostAccess_busy {s : State} (hbusy : s.eng ≠ .idle) (a : Access) (hold : Nat) :
    ∃ t, hostAccess a hold s = .next t ∧ t.commandView = s.commandView ∧ t.inputs = s.inputs := by
  rcases hostAccess_cases a hold s with ⟨e, -, hc⟩ | ⟨-, -, hc⟩ | ⟨-, -, hidle, -⟩ | ⟨r, -, -, -, hr, hc⟩ |
    ⟨x, -, -, hidle, -⟩
  · refine ⟨_, hc, s.refuseAccess_commandView a e, ?_⟩
    rw [State.refuseAccess_eq]
  · exact ⟨_, hc, rfl, rfl⟩
  · exact absurd hidle hbusy
  · obtain rfl := hr.resolve_left hbusy
    refine ⟨_, hc, s.writeStatus_commandView a.data, ?_⟩
    rw [State.writeReg, State.writeStatus_eq]
  · exact absurd hidle hbusy

/-- A command reads nothing that the command's view leaves out. -/
theorem exec_commandView (i : Instr) (s : State) :
    mapNext State.commandView (exec i s.commandView) = mapNext State.commandView (exec i s) := by
  have hcongr : issueError s.commandView i = issueError s i := issueError_congr rfl rfl i
  cases hi : issueError s i with
  | some e =>
    rw [exec_of_error hi, exec_of_error (hcongr.trans hi), mapNext, mapNext, State.raise_commandView,
      State.raise_commandView]
    rfl
  | none =>
    cases i with
    | nop | init | compress | compare => rfl
    | reserved opc x => simp [issueError] at hi
    | digest len =>
      simp only [exec, execDigest, issue_of_ok hi, issue_of_ok (hcongr.trans hi), State.accept_msg, State.commandView_msg]
      cases s.msg.readBytes 0 len <;> rfl
    | digest2 len =>
      simp only [exec, execDigest2, issue_of_ok hi, issue_of_ok (hcongr.trans hi), State.accept_msg, State.commandView_msg]
      cases s.msg.readBytes 0 len <;> rfl
    | tryNonce plen w =>
      simp only [exec, execTry, issue_of_ok hi, issue_of_ok (hcongr.trans hi), State.accept_msg, State.accept_target,
        State.accept_nonce, State.commandView_msg, State.commandView_target, State.commandView_nonce]
      cases runTrial s.target plen w s.nonce.toNat s.msg <;> rfl
    | search plen w =>
      simp only [exec, execSearch, issue_of_ok hi, issue_of_ok (hcongr.trans hi), State.accept_msg, State.accept_target,
        State.commandView_msg, State.commandView_target]
      cases searchLoop s.target plen w (2 ^ (8 * w) - 1) 0 s.msg <;> rfl

theorem exec_congr_commandView {s t : State} (h : s.commandView = t.commandView) (i : Instr) :
    mapNext State.commandView (exec i s) = mapNext State.commandView (exec i t) := by
  rw [← exec_commandView i s, h, exec_commandView]

/-- A command accepted before is accepted again, to the same end: it takes CMD as its own word either way (R22). -/
theorem exec_accept {i : Instr} {s : State} (hi : issueError s i = none) : exec i (s.accept i) = exec i s := by
  have hcongr : issueError (s.accept i) i = issueError s i := issueError_congr rfl rfl i
  cases i <;>
    simp only [exec, execNop, execInit, execCompress, execDigest, execDigest2, execCompare, execTry, execSearch,
      execReserved] <;>
    exact issue_congr (hcongr.trans hi) hi rfl

/-- The CMD write of a command that passes its checks, with inputs before the completion: the engine is busy with it
(R22, R234). -/
theorem step_cmdWrite_held {s : State} {i : Instr} {hold : Nat} {rest : List Input} (hwf : i.wf = true)
    (hidle : s.eng = .idle) (hi : issueError s i = none) (hpos : 0 < hold)
    (hin : s.inputs = .access (cmdWriteAccess (encode i)) hold :: rest) :
    step s = .next { s.accept i with inputs := rest, eng := .busy i hold } := by
  obtain ⟨k, rfl⟩ := Nat.exists_eq_add_one_of_ne_zero hpos.ne'
  have hi' : issueError { s with inputs := rest } i = none := (issueError_congr rfl rfl i).trans hi
  rw [step_cmdWrite hidle hin, commandWrite_held (decode_encode hwf) hi']
  rfl

/-- A busy engine with host accesses alone before its completion ends as its command does at once. -/
theorem run_busy_accesses (i : Instr) (accs : List (Access × Nat)) (s : State) (hbusy : s.eng = .busy i accs.length)
    (hin : s.inputs = accs.map fun a => .access a.1 a.2) :
    mapNext State.commandView (Sys2Proof.core.run (accs.length + 1) s) =
      mapNext State.commandView (exec i { s with eng := .idle }) := by
  induction accs generalizing s with
  | nil => rw [List.length_nil, run_one, step_complete hbusy]
  | cons a accs ih =>
    obtain ⟨t, ht, hview, hinputs⟩ := hostAccess_busy
      (s := { s with eng := .busy i accs.length, inputs := accs.map fun a => .access a.1 a.2 }) nofun a.1 a.2
    have hidle : ({ t with eng := .idle } : State).commandView = ({ s with eng := .idle } : State).commandView :=
      congrArg (fun v : State => { v with eng := .idle }) hview
    rw [List.length_cons, run_next ((step_access_busy hbusy hin).trans ht), ih t (congrArg State.eng hview) hinputs]
    exact exec_congr_commandView hidle i

/-! ### The statements -/

/-- Settles O12: idle or busy, the refusal is the error record and the value read. -/
theorem refusedAccessChangesOnlyTheErrorRecord : Obligations.RefusedAccessChangesOnlyTheErrorRecord := by
  intro s a hold rest e hin he
  refine ⟨fun hidle => ?_, fun i left hbusy => ?_⟩
  · rw [step_access_idle hidle hin, hostAccess_of_error ((accessError_with_inputs s rest a).trans he),
      State.refuseAccess_eq]
  · rw [step_access_busy hbusy hin, hostAccess_of_error ((accessError_of_busy hbusy rest a).trans he),
      State.refuseAccess_eq]

/-- Settles O14: the write passes its checks, and MSG reads after it as `Memory.writeBytes` and `Memory.write` say. -/
theorem msgWriteStoresItsBytes : Obligations.MsgWriteStoresItsBytes := by
  intro s a data hold rest hidle hm
  refine ⟨fun halign ha hin => ?_, fun ha hin => ?_⟩
  · refine ⟨_, step_msgWrite hidle hm (by omega) (.inr ⟨rfl, halign⟩) hin, rfl, fun k hk => ?_, fun b hb => ?_⟩
    · rw [← busBytes_getElem data hk]; exact Memory.read_writeBytes_inside (busBytes data) s.msg a k hk
    · exact Memory.read_writeBytes_outside (busBytes data) s.msg a b hb
  · exact ⟨_, step_msgWrite hidle hm ha (.inl rfl) hin, rfl, Memory.read_write_same _ _ _,
      fun b hb => Memory.read_write_other _ _ hb⟩

/-- Settles O15: the read passes its checks, and each written byte stands at its place in the value. -/
theorem msgReadReturnsTheBytes : Obligations.MsgReadReturnsTheBytes := by
  intro s a data hold rest hidle hm
  refine ⟨fun halign ha hin => ?_, fun b ha hb hin => ?_⟩
  · obtain ⟨t, ht, hread⟩ := step_msgRead hidle hm (by omega) (.inr ⟨rfl, halign⟩) hin
    refine ⟨t, ht, fun k b hk hb => ?_⟩
    calc t.readData.extractLsb' (8 * k) 8
        = (s.idleReadValue (.msg a) .four).extractLsb' (8 * k) 8 := by rw [hread]
      _ = s.hostByte (a + k) k := extractLsb'_be32 (fun k => s.hostByte (a + k) k) hk
      _ = b := State.hostByte_of_written hb k
  · obtain ⟨t, ht, hread⟩ := step_msgRead hidle hm ha (.inl rfl) hin
    have hvalue : s.idleReadValue (.msg a) .one = (s.hostByte a 0).setWidth 32 := rfl
    exact ⟨t, ht, by rw [hread, hvalue, State.hostByte_of_written hb]⟩

/-- Settles O22: idle or busy, the access is `State.hostRead`. -/
theorem readsHaveNoSideEffect : Obligations.ReadsHaveNoSideEffect := by
  intro s off size data hold rest hin he
  refine ⟨fun hidle => ?_, fun i left hbusy => ?_⟩
  · have he' := (accessError_with_inputs s rest _).trans he
    exact ⟨_, (step_access_idle hidle hin).trans (hostAccess_read he' rfl hold), rfl⟩
  · have he' := (accessError_of_busy hbusy rest _).trans he
    exact ⟨_, (step_access_busy hbusy hin).trans (hostAccess_read he' rfl hold), rfl⟩

/-- Settles O40, from the trial on written bytes in full. -/
theorem hardwareTrialIsThePureTrial : Obligations.HardwareTrialIsThePureTrial := by
  intro target plen w n msg p hp
  refine ⟨_, runTrial_of_prefix target w n hp, rfl, ?_, rfl, prefix_after_nonce w n hp,
    readBytes_nonceField msg plen w n, agreesOutside_nonceField msg plen w n⟩
  simp only [doubleDigest, digest, candidate]

/-- Settles O56: the CMD write accepts the command, the accesses keep all it depends on, and the completion runs it. -/
theorem commandIsAtomic : Obligations.CommandIsAtomic := by
  intro s i accs hwf hidle hi hne hin
  have hstep := step_cmdWrite_held hwf hidle hi (List.length_pos_iff.2 hne) hin
  have hview (rest : List Input) :
      ({ s.accept i with inputs := rest, eng := .idle } : State).commandView = (s.accept i).commandView := by
    rw [← hidle]; rfl
  rw [run_next hstep, run_busy_accesses i accs _ rfl rfl, exec_congr_commandView (hview _), exec_accept hi]

end Sys2Proof.Machine

/-! PROOFS. The decoder against the opcode table, and the CMD writes it refuses (spec 30_encoding.md R81 to R90,
60_exceptions.md R201, R202). -/

namespace Sys2Proof

/-! ### Decoding and encoding are inverse (R84, R89) -/

/-- A word decodes to a command exactly where the command is well-formed and has that word. -/
theorem decode_eq_ok_iff {c : Word} {i : Instr} : decode c = .ok i ↔ i.wf = true ∧ encode i = c :=
  ⟨wf_and_encode_of_decode, fun ⟨hwf, henc⟩ => henc ▸ decode_encode hwf⟩

/-! ### The rows of the opcode table by mask and match (R85) -/

/-- Masking with ones from bit `n` up is shifting the bits below `n` out and zeros in. -/
theorem and_allOnes_shiftLeft {w : Nat} (c : BitVec w) (n : Nat) : c &&& BitVec.allOnes w <<< n = (c >>> n) <<< n := by
  ext j hj
  by_cases h : j < n
  · simp [h]
  · simp [h, show n + (j - n) = j by omega, BitVec.getLsbD_eq_getElem hj]

/-- A mask of ones from bit `n` up matches `k` at bit `n` exactly where those bits, as a number, are `k`. -/
theorem and_topMask_eq_iff (c : Word) (n k : Nat) (hk : k * 2 ^ n < 2 ^ 32) :
    c &&& BitVec.allOnes 32 <<< n = BitVec.ofNat 32 (k * 2 ^ n) ↔ c.toNat / 2 ^ n = k := by
  have htop : c.toNat / 2 ^ n * 2 ^ n < 2 ^ 32 := (Nat.div_mul_le_self ..).trans_lt c.isLt
  rw [and_allOnes_shiftLeft, ← BitVec.toNat_inj, BitVec.toNat_shiftLeft, BitVec.toNat_ushiftRight, BitVec.toNat_ofNat,
    Nat.shiftRight_eq_div_pow, Nat.shiftLeft_eq, Nat.mod_eq_of_lt htop, Nat.mod_eq_of_lt hk]
  exact Nat.mul_left_inj (Nat.two_pow_pos n).ne'

/-- The row of a command without operands names its word, all 32 bits (R81). -/
theorem decode_eq_ok_iff_row {i : Instr} (hwf : i.wf = true) (c : Word) :
    decode c = .ok i ↔ c &&& BitVec.allOnes 32 = encode i := by
  rw [decode_eq_ok_iff, BitVec.and_allOnes]
  exact ⟨fun h => h.2.symm, fun h => ⟨hwf, h.symm⟩⟩

/-- The row of a format L command names its opcode and the zero bits [23:16] (R82). -/
theorem exists_decode_formatL_iff {f : Nat → Instr} {opc : BitVec 8} (hwf : ∀ len, (f len).wf = Instr.lenFits len)
    (henc : ∀ len, encode (f len) = encodeL opc len) (c : Word) :
    (∃ len, decode c = .ok (f len)) ↔ c.toNat / 2 ^ 16 = opc.toNat * 2 ^ 8 := by
  simp only [decode_eq_ok_iff, hwf, henc, Instr.lenFits, decide_eq_true_eq]
  constructor
  · rintro ⟨len, hlen, rfl⟩
    rw [encodeL_toNat opc (by omega)]; omega
  · intro hc
    refine ⟨c.toNat % 2 ^ 16, by omega, BitVec.eq_of_toNat_eq ?_⟩
    rw [encodeL_toNat opc (by omega)]; omega

/-- The row of a format S command names its opcode and the zero bits [23:20] (R83). -/
theorem exists_decode_formatS_iff {f : Nat → Nat → Instr} {opc : BitVec 8}
    (hwf : ∀ plen w, (f plen w).wf = Instr.searchFits plen w)
    (henc : ∀ plen w, encode (f plen w) = encodeS opc plen w) (c : Word) :
    (∃ plen w, decode c = .ok (f plen w)) ↔ c.toNat / 2 ^ 20 = opc.toNat * 2 ^ 4 := by
  simp only [decode_eq_ok_iff, hwf, henc, Instr.searchFits, Bool.and_eq_true, decide_eq_true_eq]
  constructor
  · rintro ⟨plen, w, hfits, rfl⟩
    rw [encodeS_toNat opc (by omega) (by omega)]; omega
  · intro hc
    refine ⟨c.toNat % 2 ^ 16, c.toNat / 2 ^ 16 % 2 ^ 4, by omega, BitVec.eq_of_toNat_eq ?_⟩
    rw [encodeS_toNat opc (by omega) (by omega)]; omega

/-- A word decodes to a reserved opcode exactly where its opcode is 0x08 or more (R86). -/
theorem exists_decode_reserved_iff (c : Word) :
    (∃ opc x, decode c = .ok (.reserved opc x)) ↔ 0x08 ≤ (opcodeOf c).toNat := by
  constructor
  · rintro ⟨opc, x, h⟩
    obtain ⟨hwf, rfl⟩ := decode_eq_ok_iff.1 h
    rw [Laws.OpcodeField.reserved opc x hwf]
    exact of_decide_eq_true hwf
  · exact fun h => ⟨_, _, decode_reserved h⟩

/-- The five reserved rows tile the opcodes 0x08 to 0xFF (R85, R86). -/
theorem reservedRows_iff (c : Word) :
    0x08 ≤ (opcodeOf c).toNat ↔
      c &&& 0xF8000000 = 0x08000000 ∨ c &&& 0xF0000000 = 0x10000000 ∨ c &&& 0xE0000000 = 0x20000000 ∨
      c &&& 0xC0000000 = 0x40000000 ∨ c &&& 0x80000000 = 0x80000000 := by
  have h27 : c &&& 0xF8000000 = 0x08000000 ↔ c.toNat / 2 ^ 27 = 1 := and_topMask_eq_iff c 27 1 (by decide)
  have h28 : c &&& 0xF0000000 = 0x10000000 ↔ c.toNat / 2 ^ 28 = 1 := and_topMask_eq_iff c 28 1 (by decide)
  have h29 : c &&& 0xE0000000 = 0x20000000 ↔ c.toNat / 2 ^ 29 = 1 := and_topMask_eq_iff c 29 1 (by decide)
  have h30 : c &&& 0xC0000000 = 0x40000000 ↔ c.toNat / 2 ^ 30 = 1 := and_topMask_eq_iff c 30 1 (by decide)
  have h31 : c &&& 0x80000000 = 0x80000000 ↔ c.toNat / 2 ^ 31 = 1 := and_topMask_eq_iff c 31 1 (by decide)
  rw [opcodeOf_toNat, h27, h28, h29, h30, h31]
  have := c.isLt
  omega

/-! ### Reserved operand bits (R87) -/

theorem decodeN_rejected {c : Word} (h : c.extractLsb' 0 24 ≠ 0) (i : Instr) :
    decodeN c i = .error .reservedBits := if_neg h

theorem decodeL_rejected {c : Word} (h : c.extractLsb' 16 8 ≠ 0) (f : Nat → Instr) :
    decodeL c f = .error .reservedBits := if_neg h

theorem decodeS_rejected {c : Word} (h : c.extractLsb' 20 4 ≠ 0) (f : Nat → Nat → Instr) :
    decodeS c f = .error .reservedBits := if_neg h

/-- A defined opcode with a nonzero reserved bit of its format does not decode. -/
theorem decode_rejected {c : Word}
    (h : ((opcodeOf c).toNat ∈ [0x00, 0x01, 0x02, 0x05] ∧ c.extractLsb' 0 24 ≠ 0) ∨
      ((opcodeOf c).toNat ∈ [0x03, 0x04] ∧ c.extractLsb' 16 8 ≠ 0) ∨
      ((opcodeOf c).toNat ∈ [0x06, 0x07] ∧ c.extractLsb' 20 4 ≠ 0)) : decode c = .error .reservedBits := by
  simp only [List.mem_cons, List.not_mem_nil, or_false] at h
  rcases h with ⟨hk | hk | hk | hk, hbits⟩ | ⟨hk | hk, hbits⟩ | ⟨hk | hk, hbits⟩
  · exact (decode_nop hk).trans (decodeN_rejected hbits _)
  · exact (decode_init hk).trans (decodeN_rejected hbits _)
  · exact (decode_compress hk).trans (decodeN_rejected hbits _)
  · exact (decode_compare hk).trans (decodeN_rejected hbits _)
  · exact (decode_digest hk).trans (decodeL_rejected hbits _)
  · exact (decode_digest2 hk).trans (decodeL_rejected hbits _)
  · exact (decode_tryNonce hk).trans (decodeS_rejected hbits _)
  · exact (decode_search hk).trans (decodeS_rejected hbits _)

end Sys2Proof

namespace Sys2Proof.Machine

/-! ### The statements -/

/-- Settles O1, command by command. -/
theorem decodeOfEncodeIsTheCommand : Obligations.DecodeOfEncodeIsTheCommand := fun _ => decode_encode

/-- Settles O2, opcode by opcode and format by format. -/
theorem decodedWordIsTheEncoding : Obligations.DecodedWordIsTheEncoding := fun _ _ => wf_and_encode_of_decode

/-- Settles O3: each mask keeps the bits from some place up, and its row says what number they are. -/
theorem decodeMatchesTheOpcodeTable : Obligations.DecodeMatchesTheOpcodeTable := by
  intro c
  refine ⟨decode_eq_ok_iff_row rfl c, decode_eq_ok_iff_row rfl c, decode_eq_ok_iff_row rfl c, ?_, ?_,
    decode_eq_ok_iff_row rfl c, ?_, ?_, (exists_decode_reserved_iff c).trans (reservedRows_iff c)⟩
  · exact (exists_decode_formatL_iff (opc := 0x03) (fun _ => rfl) (fun _ => rfl) c).trans
      (and_topMask_eq_iff c 16 0x0300 (by decide)).symm
  · exact (exists_decode_formatL_iff (opc := 0x04) (fun _ => rfl) (fun _ => rfl) c).trans
      (and_topMask_eq_iff c 16 0x0400 (by decide)).symm
  · exact (exists_decode_formatS_iff (opc := 0x06) (fun _ _ => rfl) (fun _ _ => rfl) c).trans
      (and_topMask_eq_iff c 20 0x060 (by decide)).symm
  · exact (exists_decode_formatS_iff (opc := 0x07) (fun _ _ => rfl) (fun _ _ => rfl) c).trans
      (and_topMask_eq_iff c 20 0x070 (by decide)).symm

/-- Settles O4: each accepted word is the word of its well-formed command, and the last has a nonzero bit of [23:20]. -/
theorem specWordsDecode : Obligations.SpecWordsDecode :=
  ⟨decode_encode (i := .nop) rfl, decode_encode (i := .init) rfl, decode_encode (i := .compress) rfl,
    decode_encode (i := .digest 4096) rfl, decode_encode (i := .digest2 81) rfl, decode_encode (i := .compare) rfl,
    decode_encode (i := .tryNonce 4095 1) rfl, decode_encode (i := .search 76 4) rfl,
    decode_encode (i := .reserved 0x08 0xFFFFFF) rfl, decode_rejected (by decide)⟩

/-- Settles O7: the word decodes to the reserved row, which fails its check at issue. -/
theorem reservedOpcodeIsRefused : Obligations.ReservedOpcodeIsRefused := by
  intro s c hold rest hidle hin hopc
  rw [step_cmdWrite hidle hin]
  exact commandWrite_error (decode_reserved hopc) rfl hold

/-- Settles O8: the reserved row in full. -/
theorem reservedRowRecordsIllegalOpcode : Obligations.ReservedRowRecordsIllegalOpcode :=
  fun s opc x => exec_reserved opc x s

/-- Settles O9: the word does not decode. -/
theorem reservedBitsAreRefused : Obligations.ReservedBitsAreRefused := by
  intro s c hold rest hidle hin hbits
  rw [step_cmdWrite hidle hin]
  exact commandWrite_rejected (decode_rejected hbits) hold _

end Sys2Proof.Machine

/-! PROOFS. The compression datapath: rotation, shift and the six logical functions bit by bit, the schedule recurrence
and the rounds of Compress (spec 40_datapath.md R102 to R117). -/

namespace Sys2Proof.Machine

/-! ### Bits of the word functions (R102 to R110) -/

/-- The rotation of R102 is the library's. -/
theorem rotr_eq_rotateRight {n : Nat} (hn : n < 32) (x : Word) : rotr n x = x.rotateRight n := by
  rw [BitVec.rotateRight_def, Nat.mod_eq_of_lt hn, rotr]

/-- Bit `i` of ROTR^n comes from bit `i + n`, counted round past bit 31 (R102). -/
theorem rotr_getLsbD {n i : Nat} (hn : n < 32) (hi : i < 32) (x : Word) :
    (rotr n x).getLsbD i = x.getLsbD ((i + n) % 32) := by
  rw [rotr_eq_rotateRight hn, BitVec.getLsbD_rotateRight, Nat.mod_eq_of_lt hn]
  by_cases h : i < 32 - n
  · rw [Nat.mod_eq_of_lt (by omega), Nat.add_comm i n]
    simp [h]
  · have hwrap : (i + n) % 32 = i - (32 - n) := by omega
    simp [h, hi, hwrap]

/-- Bit `i` of SHR^n is bit `i + n`, and 0 where the word has no such bit (R103). -/
theorem shr_getLsbD (n i : Nat) (x : Word) :
    (shr n x).getLsbD i = if i + n < 32 then x.getLsbD (i + n) else false := by
  rw [shr, BitVec.getLsbD_ushiftRight, Nat.add_comm n i]
  split
  · rfl
  · exact BitVec.getLsbD_of_ge x _ (by omega)

/-- A bit of Ch is chosen by the bit of `x` (R105). -/
theorem ch_getLsbD (x y z : Word) {i : Nat} (hi : i < 32) :
    (ch x y z).getLsbD i = if x.getLsbD i then y.getLsbD i else z.getLsbD i := by
  simp only [ch, BitVec.getLsbD_xor, BitVec.getLsbD_and, BitVec.getLsbD_not, hi]
  cases x.getLsbD i <;> simp

/-- A bit of Maj is set where at least two of the three bits are (R106). -/
theorem maj_getLsbD (x y z : Word) (i : Nat) :
    (maj x y z).getLsbD i = true ↔ 2 ≤ (x.getLsbD i).toNat + (y.getLsbD i).toNat + (z.getLsbD i).toNat := by
  simp only [maj, BitVec.getLsbD_xor, BitVec.getLsbD_and]
  generalize x.getLsbD i = a, y.getLsbD i = b, z.getLsbD i = c
  revert a b c
  decide

/-! ### The message schedule (R113) -/

/-- The words of `w`, oldest first, from word 16 on follow the recurrence of R113. -/
def MeetsRecurrence (w : List Word) : Prop :=
  ∀ t, 16 ≤ t → t < w.length →
    w.getD t 0 = smallSigma1 (w.getD (t - 2) 0) + w.getD (t - 7) 0 + smallSigma0 (w.getD (t - 15) 0) + w.getD (t - 16) 0

/-- The next word, read off the words so far oldest first. -/
theorem nextScheduleWord_reverse {w : List Word} (hw : 16 ≤ w.length) :
    nextScheduleWord w.reverse = smallSigma1 (w.getD (w.length - 2) 0) + w.getD (w.length - 7) 0 +
      smallSigma0 (w.getD (w.length - 15) 0) + w.getD (w.length - 16) 0 := by
  have hback (k : Nat) (hk : k < 16) : w.reverse.getD k 0 = w.getD (w.length - (k + 1)) 0 := by
    rw [List.getD_reverse k (by omega), Nat.sub_sub, Nat.add_comm 1 k]
  rw [nextScheduleWord, hback 1 (by decide), hback 6 (by decide), hback 14 (by decide), hback 15 (by decide)]

/-- One more word keeps the recurrence. -/
theorem MeetsRecurrence.append_next {w : List Word} (h : MeetsRecurrence w) (hw : 16 ≤ w.length) :
    MeetsRecurrence (w ++ [nextScheduleWord w.reverse]) := by
  intro t ht hlen
  rw [List.length_append, List.length_singleton] at hlen
  have hold (k : Nat) (hk : k < w.length) : (w ++ [nextScheduleWord w.reverse]).getD k 0 = w.getD k 0 :=
    List.getD_append _ _ _ _ hk
  rw [hold (t - 2) (by omega), hold (t - 7) (by omega), hold (t - 15) (by omega), hold (t - 16) (by omega)]
  obtain hlt | rfl : t < w.length ∨ t = w.length := by omega
  · rw [hold t hlt, h t ht hlt]
  · rw [List.getD_append_right _ _ _ _ le_rfl, Nat.sub_self, List.getD_cons_zero, nextScheduleWord_reverse hw]

/-- Extending by `n` words adds them behind the words so far, `n` in number, and keeps the recurrence. -/
theorem expandSchedule_reverse (n : Nat) {w : List Word} (hw : 16 ≤ w.length) (h : MeetsRecurrence w) :
    w <+: (expandSchedule n w.reverse).reverse ∧ (expandSchedule n w.reverse).reverse.length = w.length + n ∧
      MeetsRecurrence (expandSchedule n w.reverse).reverse := by
  induction n generalizing w with
  | zero => simpa [expandSchedule] using h
  | succ n ih =>
    have hnext : nextScheduleWord w.reverse :: w.reverse = (w ++ [nextScheduleWord w.reverse]).reverse := by simp
    obtain ⟨hprefix, hlen, hrec⟩ := ih (by simp; omega) (h.append_next hw)
    rw [expandSchedule, hnext]
    refine ⟨(List.prefix_append w _).trans hprefix, ?_, hrec⟩
    rw [hlen, List.length_append, List.length_singleton, Nat.add_right_comm, Nat.add_assoc]

/-- Sixteen words have nothing to follow the recurrence yet. -/
theorem meetsRecurrence_block (m : Words16) : MeetsRecurrence m.toList := by
  intro t ht hlen
  rw [Vector.length_toList] at hlen
  omega

/-- The schedule begins with the block, has 64 words and meets the recurrence. -/
theorem schedule_spec (m : Words16) :
    m.toList <+: schedule m ∧ (schedule m).length = 64 ∧ MeetsRecurrence (schedule m) := by
  obtain ⟨hprefix, hlen, hrec⟩ := expandSchedule_reverse 48 (Vector.length_toList.ge) (meetsRecurrence_block m)
  exact ⟨hprefix, hlen.trans (by rw [Vector.length_toList]), hrec⟩

/-! ### The rounds (R114, R115) -/

/-- A fold along a list ends where any sequence of its states does that starts alike and takes each step. -/
theorem foldl_eq_of_steps {α β : Type} (f : β → α → β) (l : List α) (v : Nat → β)
    (hstep : ∀ t (ht : t < l.length), v (t + 1) = f (v t) l[t]) : l.foldl f (v 0) = v l.length := by
  induction l generalizing v with
  | nil => rfl
  | cons a l ih =>
    have hfirst : v 1 = f (v 0) a := hstep 0 (Nat.zero_lt_succ _)
    rw [List.foldl_cons, ← hfirst]
    exact ih (fun t => v (t + 1)) fun t ht => hstep (t + 1) (Nat.succ_lt_succ ht)

theorem length_roundConstants : roundConstants.length = 64 := rfl

/-- The rounds over 64 schedule words end in the 64th state of any sequence that takes round `t`, with `K[t]` and `W[t]`,
from its state `t` to its state `t + 1`. -/
theorem rounds_eq_of_steps {w : List Word} (hw : w.length = 64) (v : Nat → Vars)
    (hstep : ∀ t, t < 64 → v (t + 1) = roundStep (v t) (roundConstants.getD t 0) (w.getD t 0)) :
    rounds w (v 0) = v 64 := by
  have hlen : (roundConstants.zip w).length = 64 := by rw [List.length_zip, length_roundConstants, hw]; rfl
  rw [rounds, foldl_eq_of_steps _ _ v, hlen]
  intro t ht
  rw [hlen] at ht
  rw [hstep t ht, List.getElem_zip, List.getD_eq_getElem _ _ (length_roundConstants ▸ ht),
    List.getD_eq_getElem _ _ (hw ▸ ht)]

/-! ### The statements -/

/-- Settles O31: the fold over the 64 pairs K[t], W[t] goes through the states of the given sequence. -/
theorem compressRunsSixtyFourRounds : Obligations.CompressRunsSixtyFourRounds := by
  intro hin m v hload hstep
  obtain ⟨-, hlen, -⟩ := schedule_spec m
  have hload : v 0 = Vars.load hin := hload
  rw [compress, varsAfter, ← hload, rounds_eq_of_steps hlen v hstep, finalAdd]

/-- Settles O30, from how the schedule begins, how long it is and the recurrence it meets. -/
theorem scheduleRecurrence : Obligations.ScheduleRecurrence := by
  intro m
  obtain ⟨hprefix, hlen, hrec⟩ := schedule_spec m
  refine ⟨hlen, fun t => ?_, fun t ht hlt => hrec t ht (hlen ▸ hlt)⟩
  have ht : t.val < m.toList.length := by rw [Vector.length_toList]; exact t.isLt
  rw [List.getD_eq_getElem _ _ (ht.trans_le hprefix.length_le), ← hprefix.getElem ht, Vector.getElem_toList]
  rfl

/-- Settles O27: a rotation counts the bit's place round, a shift runs out of bits. -/
theorem rotateAndShiftBits : Obligations.RotateAndShiftBits :=
  fun x n i _ hn hi => ⟨rotr_getLsbD hn hi x, shr_getLsbD n i x⟩

/-- Settles O28, by the values of the three bits. -/
theorem choiceAndMajorityBits : Obligations.ChoiceAndMajorityBits :=
  fun x y z i hi => ⟨ch_getLsbD x y z hi, maj_getLsbD x y z i⟩

/-- Settles O29: each term's bit by the rule of its rotation or shift. -/
theorem sigmaBits : Obligations.SigmaBits := by
  intro x i hi r q
  have hrotr (n : Nat) (hn : n < 32) : (rotr n x).getLsbD i = r n := rotr_getLsbD hn hi x
  have hshr (n : Nat) : (shr n x).getLsbD i = q n := shr_getLsbD n i x
  simp only [bigSigma0, bigSigma1, smallSigma0, smallSigma1, BitVec.getLsbD_xor, hrotr, hshr, Nat.reduceLT, and_self]

end Sys2Proof.Machine

/-! PROOFS. Padding, blocks, the digest of a message and DIGEST as a run of COMPRESS (spec 10_state.md R26, 41_digest.md
R141 to R152). -/

namespace Sys2Proof.Machine

/-! ### Padding and blocks (R141 to R143) -/

/-- The padded message fills its blocks (R142). -/
theorem pad_length_eq_blocks (m : List Byte) : (pad m).length = 64 * nblocks m.length := by
  obtain ⟨hlt, hmod⟩ := zeroBytes_spec m.length
  rw [pad_length, nblocks]
  omega

/-- Fewer zero bytes do not bring the length field to the end of a block (R141). -/
theorem zeroBytes_least {len j : Nat} (hj : j < zeroBytes len) : (len + 1 + j) % 64 ≠ 56 := by
  obtain ⟨hlt, hmod⟩ := zeroBytes_spec len
  omega

@[simp] theorem messageBlocks_length (m : List Byte) : (messageBlocks m).length = nblocks m.length :=
  cutBlocks_length _ _

/-- Word `i` of block `j` is packed from the four padded bytes from `64j + 4i` (R143). -/
theorem messageBlocks_getElem (m : List Byte) {j i : Nat} (hj : j < (messageBlocks m).length) (hi : i < 16) :
    ((messageBlocks m)[j])[i] = be32 ((pad m).getD (64 * j + 4 * i) 0) ((pad m).getD (64 * j + 4 * i + 1) 0)
      ((pad m).getD (64 * j + 4 * i + 2) 0) ((pad m).getD (64 * j + 4 * i + 3) 0) := by
  have hbyte : 4 * (16 * j + i) = 64 * j + 4 * i := by omega
  have hend : 4 * (16 * j + i) + 4 ≤ (pad m).length := by
    rw [messageBlocks_length] at hj
    rw [pad_length_eq_blocks]
    omega
  calc ((messageBlocks m)[j])[i] = (beWords (pad m)).getD (16 * j + i) 0 := cutBlocks_getElem _ _ _ hj _ hi
    _ = _ := by rw [beWords_getD _ _ hend, hbyte]

/-! ### The bytes of words (R15, R26) -/

/-- Byte `j` of a word, the most significant first, is its bits [31-8j:24-8j] (R15). -/
theorem be32bytes_getD (x : Word) {j : Nat} (hj : j < 4) :
    (be32bytes x).getD j 0 = x.extractLsb' (24 - 8 * j) 8 := by
  match j, hj with
  | 0, _ | 1, _ | 2, _ | 3, _ => rfl

/-- Byte `4i + j` of a sequence of words is byte `j` of word `i` (R26). -/
theorem flatMap_be32bytes_getD (ws : List Word) {i j : Nat} (hi : i < ws.length) (hj : j < 4) :
    (ws.flatMap be32bytes).getD (4 * i + j) 0 = (be32bytes ws[i]).getD j 0 := by
  induction ws generalizing i with
  | nil => simp at hi
  | cons x ws ih =>
    rw [List.flatMap_cons]
    cases i with
    | zero => rw [Nat.mul_zero, Nat.zero_add, List.getD_append _ _ _ _ hj, List.getElem_cons_zero]
    | succ i =>
      have hskip : 4 * (i + 1) + j - (be32bytes x).length = 4 * i + j := by rw [be32bytes_length]; omega
      rw [List.getD_append_right _ _ _ _ (by rw [be32bytes_length]; omega), hskip, ih (Nat.lt_of_succ_lt_succ hi),
        List.getElem_cons_succ]

/-- The words read from the bytes of words are those words (R15, R143). -/
theorem beWords_flatMap_be32bytes_append (ws : List Word) (rest : List Byte) :
    beWords (ws.flatMap be32bytes ++ rest) = ws ++ beWords rest := by
  induction ws with
  | nil => rfl
  | cons x ws ih =>
    calc beWords ((x :: ws).flatMap be32bytes ++ rest)
        = be32 (x.extractLsb' 24 8) (x.extractLsb' 16 8) (x.extractLsb' 8 8) (x.extractLsb' 0 8) ::
            beWords (ws.flatMap be32bytes ++ rest) := rfl
      _ = x :: ws ++ beWords rest := by rw [be32_of_be32bytes, ih, List.cons_append]

/-- The first byte packed into a word is its bits [31:24] (R15). -/
theorem be32_topByte (b0 b1 b2 b3 : Byte) : (be32 b0 b1 b2 b3).extractLsb' 24 8 = b0 :=
  (List.cons.inj (be32bytes_be32 b0 b1 b2 b3)).1

/-! ### A message of 32 bytes (R147) -/

/-- The words that pad a message of 32 bytes to one block: the bit 1, zeros and the bit length 256 (R147). -/
def digestPadWords : List Word := [0x80000000, 0, 0, 0, 0, 0, 0, 0x00000100]

/-- The padding of the bytes of eight words (R141, R147). -/
theorem beWords_pad_wordsBytes (h : Words8) : beWords (pad (wordsBytes h)) = h.toList ++ digestPadWords := by
  have htail : beWords ([0x80] ++ List.replicate (zeroBytes 32) 0 ++ be64bytes (8 * 32)) = digestPadWords := by decide
  rw [pad, wordsBytes_length, List.append_assoc, List.append_assoc, ← List.append_assoc [0x80], wordsBytes,
    beWords_flatMap_be32bytes_append, htail]

/-- The bytes of eight words make one block: those words and their padding (R147). -/
theorem messageBlocks_wordsBytes (h : Words8) :
    messageBlocks (wordsBytes h) = [blockOf (h.toList ++ digestPadWords)] := by
  rw [messageBlocks, beWords_pad_wordsBytes, wordsBytes_length]
  rfl

/-- That block, written out. -/
theorem blockOf_digestPadWords (h : Words8) :
    blockOf (h.toList ++ digestPadWords) =
      #v[h[0], h[1], h[2], h[3], h[4], h[5], h[6], h[7], 0x80000000, 0, 0, 0, 0, 0, 0, 0x00000100] := by
  obtain ⟨⟨l⟩, hl⟩ := h
  match l, hl with
  | [_, _, _, _, _, _, _, _], _ => rfl

/-! ### COMPRESS block by block (R144, R151) -/

/-- A run of COMPRESS over blocks completes, and folds them into H. -/
theorem compressBlocks_completes (bs : List Words16) (s : State) :
    ∃ u, compressBlocks bs s = .next u ∧ u.h = bs.foldl compress s.h := by
  induction bs generalizing s with
  | nil => exact ⟨s, rfl, rfl⟩
  | cons b bs ih =>
    rw [compressBlocks, exec_compress]
    exact ih _

/-! ### The statements -/

/-- Settles O32: `zeroBytes` is the least number of zero bytes. -/
theorem paddingFillsWholeBlocks : Obligations.PaddingFillsWholeBlocks := by
  intro m
  obtain ⟨hlt, hmod⟩ := zeroBytes_spec m.length
  refine ⟨zeroBytes m.length, by omega, rfl, by omega, fun j hj => ?_, pad_length m, ?_⟩
  · have := zeroBytes_least hj
    omega
  · rw [pad_length_eq_blocks, Nat.mul_mod_right]

/-- Settles O33: the padded message is 64 bytes for each block. -/
theorem blockCount : Obligations.BlockCount := by
  intro m
  rw [messageBlocks_length, pad_length_eq_blocks, Nat.mul_mod_right, Nat.mul_div_cancel_left _ (by decide)]
  exact ⟨rfl, rfl, rfl⟩

/-- Settles O34: a word is packed from its four padded bytes, and its top byte is the first of them. -/
theorem blockWordsAreBigEndian : Obligations.BlockWordsAreBigEndian := by
  intro m j hj i p
  have hword : ((messageBlocks m)[j])[i] = be32 (p 0) (p 1) (p 2) (p 3) := messageBlocks_getElem m hj i.isLt
  exact ⟨hword, by rw [hword, be32_topByte]⟩

/-- Settles O35: a digest is the bytes of eight words, each word most significant byte first. -/
theorem digestBytes : Obligations.DigestBytes := by
  refine ⟨fun m => ⟨wordsBytes_length _, rfl⟩, fun h i j hj => ?_⟩
  rw [wordsBytes, flatMap_be32bytes_getD _ (by simp) hj, be32bytes_getD _ hj, Vector.getElem_toList]
  rfl

/-- Settles O36: the first digest is the bytes of eight words, which pad to one block. -/
theorem secondDigestIsOneBlock : Obligations.SecondDigestIsOneBlock := by
  intro m x
  refine ⟨rfl, ?_⟩
  rw [digest, digestState, messageBlocks_wordsBytes, blockOf_digestPadWords, List.foldl_cons, List.foldl_nil]

/-- Settles O50: INIT leaves IV in H, and the run of COMPRESS folds the blocks into it as DIGEST does. -/
theorem digestIsInitThenCompressEachBlock : Obligations.DigestIsInitThenCompressEachBlock := by
  intro s t len m hlen hm ht
  rw [execDigest_of_message ((lenError_eq_none_iff _ _).2 hlen) hm] at ht
  cases ht
  obtain ⟨u, hu, hh⟩ := compressBlocks_completes (messageBlocks m) { s.accept .init with h := initialChaining }
  exact ⟨_, exec_init s, u, hu, by rw [hh, digestState]⟩

end Sys2Proof.Machine

/-! PROOFS. The comparator, the nonce field, the search and the TRY that repeats it (spec 42_search.md R170 to R181). -/

namespace Sys2Proof.Machine

/-! ### The number of a byte sequence (R170) -/

/-- The number is the sum of the bytes' weights (R170). -/
theorem numberOf_eq_sum (b : List Byte) :
    numberOf b = ((List.range b.length).map fun k => (b.getD k 0).toNat * 2 ^ (8 * k)).sum := by
  induction b with
  | nil => rfl
  | cons x xs ih =>
    have hweight (k : Nat) : (xs.getD k 0).toNat * 2 ^ (8 * (k + 1)) = 256 * ((xs.getD k 0).toNat * 2 ^ (8 * k)) := by
      rw [Nat.mul_add, Nat.pow_add]; ring
    rw [numberOf, ih, List.length_cons, List.range_succ_eq_map, List.map_cons, List.sum_cons, List.map_map,
      ← List.sum_map_mul_left]
    simp only [Function.comp_def, List.getD_cons_succ, List.getD_cons_zero, hweight, Nat.mul_zero, Nat.pow_zero,
      Nat.mul_one]

/-- Sequences of one length and one number are the same. -/
theorem numberOf_inj {d t : List Byte} (hlen : d.length = t.length) : numberOf d = numberOf t ↔ d = t := by
  refine ⟨fun h => ?_, congrArg numberOf⟩
  induction d generalizing t with
  | nil => exact (List.length_eq_zero_iff.1 hlen.symm).symm
  | cons x xs ih =>
    cases t with
    | nil => cases hlen
    | cons y ys =>
      simp only [numberOf] at h
      have hx := x.isLt
      have hy := y.isLt
      rw [BitVec.eq_of_toNat_eq (show x.toNat = y.toNat by omega), ih (Nat.succ.inj hlen) (by omega)]

/-- What the byte procedure of R171 finds: a byte of `d` below that of `t`, and no difference above it. -/
def BytesBelow (d t : List Byte) : Prop :=
  ∃ k, k < d.length ∧ (d.getD k 0).toNat < (t.getD k 0).toNat ∧ ∀ j, k < j → j < d.length → d.getD j 0 = t.getD j 0

theorem not_bytesBelow_nil (t : List Byte) : ¬ BytesBelow [] t := fun ⟨_, hk, _⟩ => Nat.not_lt_zero _ hk

/-- The higher bytes decide; byte 0 decides where they are the same. -/
theorem bytesBelow_cons_iff (x y : Byte) {xs ys : List Byte} (hlen : xs.length = ys.length) :
    BytesBelow (x :: xs) (y :: ys) ↔ BytesBelow xs ys ∨ (xs = ys ∧ x.toNat < y.toNat) := by
  constructor
  · rintro ⟨_ | k, hk, hlt, heq⟩
    · refine .inr ⟨List.ext_getElem hlen fun j hj hj' => ?_, hlt⟩
      simpa [hj, hj'] using heq (j + 1) (by omega) (by simpa using hj)
    · refine .inl ⟨k, by simpa using hk, by simpa using hlt, fun j hj hjlen => ?_⟩
      simpa using heq (j + 1) (by omega) (by simpa using hjlen)
  · rintro (⟨k, hk, hlt, heq⟩ | ⟨rfl, hlt⟩)
    · refine ⟨k + 1, by simpa using hk, by simpa using hlt, fun j hj hjlen => ?_⟩
      obtain ⟨j, rfl⟩ := Nat.exists_eq_add_one_of_ne_zero (show j ≠ 0 by omega)
      simpa using heq j (by omega) (by simpa using hjlen)
    · refine ⟨0, by simp, hlt, fun j hj _ => ?_⟩
      obtain ⟨j, rfl⟩ := Nat.exists_eq_add_one_of_ne_zero (show j ≠ 0 by omega)
      simp

/-- The byte procedure decides which number is less (R171). -/
theorem numberOf_lt_iff {d t : List Byte} (hlen : d.length = t.length) :
    numberOf d < numberOf t ↔ BytesBelow d t := by
  induction d generalizing t with
  | nil =>
    rw [List.length_eq_zero_iff.1 hlen.symm]
    simp [not_bytesBelow_nil]
  | cons x xs ih =>
    cases t with
    | nil => cases hlen
    | cons y ys =>
      have hlen' : xs.length = ys.length := Nat.succ.inj hlen
      have hx := x.isLt
      have hy := y.isLt
      rw [bytesBelow_cons_iff x y hlen', ← ih hlen', ← numberOf_inj hlen', numberOf, numberOf]
      omega

/-- Settles O37: one number is at most the other where they are the same or the byte procedure finds it less. -/
theorem comparatorIsTheByteProcedure : Obligations.ComparatorIsTheByteProcedure := by
  intro d t hd ht
  have hlen : d.length = t.length := hd.trans ht.symm
  have hle : lessOrEqual d t = true ↔ numberOf d ≤ numberOf t := by rw [lessOrEqual_eq_decide, decide_eq_true_iff]
  refine ⟨hd ▸ numberOf_eq_sum d, hle, ?_⟩
  rw [hle, Nat.le_iff_lt_or_eq, numberOf_lt_iff hlen, numberOf_inj hlen, or_comm, BytesBelow, hd]

/-! ### The nonce field (R173) -/

/-- Byte `k` of the nonce field (R173). -/
theorem leBytes_getD {w k : Nat} (n : Nat) (hk : k < w) :
    ((leBytes w n).getD k 0).toNat = (n >>> (8 * k)) &&& 0xFF := by
  induction w generalizing n k with
  | zero => exact absurd hk (Nat.not_lt_zero k)
  | succ w ih =>
    cases k with
    | zero => exact (Nat.and_two_pow_sub_one_eq_mod n 8).symm
    | succ k =>
      rw [leBytes, List.getD_cons_succ, ih _ (Nat.lt_of_succ_lt_succ hk), ← Nat.shiftRight_add, Nat.mul_succ, Nat.add_comm]

/-- The nonce field denotes the nonce's low W bytes (R170, R173). -/
theorem numberOf_leBytes (w n : Nat) : numberOf (leBytes w n) = n % 2 ^ (8 * w) := by
  induction w generalizing n with
  | zero => exact (Nat.mod_one n).symm
  | succ w ih =>
    rw [leBytes, numberOf, ih, BitVec.toNat_ofNat, Nat.shiftRight_eq_div_pow, Nat.mul_succ, Nat.add_comm (8 * w),
      Nat.pow_add, Nat.mod_mul]

/-- Settles O38: a nonce below 2^(8W) is its own low W bytes. -/
theorem nonceFieldDenotesTheNonce : Obligations.NonceFieldDenotesTheNonce := fun w n _ hn =>
  ⟨leBytes_length w n, fun _ hk => leBytes_getD n hk, by rw [numberOf_leBytes, Nat.mod_eq_of_lt hn]⟩

/-! ### The search (R176) -/

/-- The search from `n` looks for a winning nonce in ascending order (R176). -/
theorem searchFrom_eq_find? (p : List Byte) (w : Nat) (t : List Byte) (left n : Nat) :
    searchFrom p w t left n = (List.range' n (left + 1)).find? (trialWins p w · t) := by
  induction left generalizing n with
  | zero => cases h : trialWins p w n t <;> simp [searchFrom, h]
  | succ left ih =>
    rw [searchFrom, ih, List.range'_succ (s := n)]
    cases h : trialWins p w n t <;> simp [h]

/-- The search looks for a winning nonce among those of W bytes, in ascending order (R176). -/
theorem searchResult_eq_find? (p : List Byte) (w : Nat) (t : List Byte) :
    searchResult p w t = (List.range (2 ^ (8 * w))).find? (trialWins p w · t) := by
  rw [searchResult, searchFrom_eq_find?, Nat.sub_add_cancel (Nat.two_pow_pos _), List.range_eq_range']

/-- Settles O39: the first winning nonce in ascending order is the least. -/
theorem searchFindsTheLeastNonce : Obligations.SearchFindsTheLeastNonce := by
  intro p w t
  rw [searchResult_eq_find?]
  refine ⟨fun n => ?_, ?_⟩
  · rw [List.find?_range_eq_some, List.mem_range, and_left_comm]
    simp only [Bool.not_eq_true', trialWins]
  · rw [List.find?_range_eq_none]
    simp only [Bool.not_eq_true', trialWins]

/-! ### TRY after SEARCH (R180, R181) -/

/-- An accepted command that completes has read written bytes alone (R62). -/
theorem ready_of_exec_next {i : Instr} {s t : State} (hi : issueError s i = none) (ht : exec i s = .next t) :
    s.ready i = true := by
  by_contra hready
  rw [exec_fault_of_not_ready hi (Bool.eq_false_iff.2 hready)] at ht
  cases ht

/-- The bytes below the nonce field are read as before where nothing outside it has changed (R61). -/
theorem readBytes_prefix_of_agreesOutside {m1 m2 : Memory} {plen w : Nat} (h : Memory.agreesOutside m1 m2 plen w) :
    m1.readBytes 0 plen = m2.readBytes 0 plen :=
  Memory.readBytes_congr _ _ _ _ fun a _ ha => h a (.inl (by omega))

/-- A SEARCH that found a nonce leaves a state on which TRY passes its checks and whose trial at NONCE wins and gives the H
and MSG the state has (R178, R181). -/
theorem trial_after_search {s t : State} {plen w : Nat} (hi : issueError s (.search plen w) = none)
    (ht : exec (.search plen w) s = .next t) (hfound : t.status.found = true) :
    issueError t (.tryNonce plen w) = none ∧
      ∃ cand, runTrial t.target plen w t.nonce.toNat t.msg = some ⟨t.msg, cand, t.h, true⟩ := by
  obtain ⟨p, hp⟩ := (s.ready_iff _).1 (ready_of_exec_next hi ht)
  obtain ⟨msg, hout, hexec⟩ := execSearch_of_prefix hi hp
  obtain ⟨hw, hw', hle⟩ := (candidateError_eq_none_iff _ _ _).1 hi
  cases hexec.symm.trans ht
  obtain ⟨n, hr⟩ := Option.isSome_iff_exists.1 hfound
  obtain ⟨hn, hwins, -⟩ := ((searchFindsTheLeastNonce p w (wordsBytes s.target)).1 n).1 hr
  have hlast : lastNonce p w s.target = n := by rw [lastNonce, hr, Option.getD_some]
  have hnonce : (BitVec.ofNat 64 n).toNat = n := toNat_ofNat_nonce hw' hn
  have hp' : (msg.writeBytes plen (leBytes w n)).readBytes 0 plen = some p :=
    prefix_after_nonce w n ((readBytes_prefix_of_agreesOutside hout).trans hp)
  rw [hlast]
  refine ⟨(issueError_tryNonce_eq_none_iff _ _ _).2 ⟨⟨hw, hw', hle⟩, hnonce.trans_lt hn⟩, p ++ leBytes w n, ?_⟩
  simp only [State.accept_target, hnonce, runTrial_of_prefix _ _ _ hp', Memory.writeBytes_writeBytes_same, hwins]

/-- Settles O49: TRY does the last trial of the SEARCH again. -/
theorem tryReproducesTheSearch : Obligations.TryReproducesTheSearch := by
  intro s t u plen w hw hw' hle ht hfound hu
  obtain ⟨hi, cand, htrial⟩ := trial_after_search ((candidateError_eq_none_iff _ _ _).2 ⟨hw, hw', hle⟩) ht hfound
  rw [execTry_of_trial hi htrial] at hu
  cases hu
  exact ⟨rfl, rfl, rfl, rfl⟩

end Sys2Proof.Machine

/-! PROOFS. The errors: which operands fail which check at issue, which access meets which error, and the record the first
error leaves (spec 60_exceptions.md R203 to R215, 70_reset_and_hazards.md R236). -/

namespace Sys2Proof.Machine

/-! ### The operand checks (R203 to R206) -/

theorem lenError_of_lt {msgBytes len : Nat} (h : msgBytes < len) : lenError msgBytes len = some .badLength := if_pos h

theorem candidateError_of_badWidth (msgBytes plen : Nat) {w : Nat} (h : w = 0 ∨ 8 < w) :
    candidateError msgBytes plen w = some .badNonceWidth := if_pos h

theorem candidateError_of_tooLong {msgBytes plen w : Nat} (hw : 1 ≤ w) (hw' : w ≤ 8) (h : msgBytes < plen + w) :
    candidateError msgBytes plen w = some .candidateTooLong := by
  have hwidth : ¬ (w = 0 ∨ w > Config.nonceWMax) := by simp only [Config.nonceWMax]; omega
  rw [candidateError, if_neg hwidth, if_pos h]

theorem nonceError_of_le {nonce : Nonce} {w : Nat} (h : 2 ^ (8 * w) ≤ nonce.toNat) :
    nonceError nonce w = some .nonceRange := if_pos h

/-- The range check on NONCE comes after the checks TRY shares with SEARCH (R211). -/
theorem issueError_tryNonce_of_candidateError {s : State} {plen w : Nat} {e : CmdError}
    (h : candidateError s.msgBytes plen w = some e) : issueError s (.tryNonce plen w) = some e := by
  simp [issueError, h]

theorem issueError_tryNonce_of_candidateError_eq_none {s : State} {plen w : Nat}
    (h : candidateError s.msgBytes plen w = none) :
    issueError s (.tryNonce plen w) = nonceError s.nonce w := by
  simp [issueError, h]

/-- A check that TRY and SEARCH share fails in both alike (R89). -/
theorem exec_of_candidateError {s : State} {plen w : Nat} {e : CmdError}
    (h : candidateError s.msgBytes plen w = some e) :
    exec (.tryNonce plen w) s = .next (s.raise e) ∧ exec (.search plen w) s = .next (s.raise e) :=
  ⟨exec_of_error (issueError_tryNonce_of_candidateError h), exec_of_error h⟩

/-! ### The access checks in their order (R52, R210) -/

theorem accessError_of_unmapped {s : State} {a : Access} (h : classify s.msgBytes a.off = .unmapped) :
    accessError s a = some .badAddress := if_pos h

theorem accessError_of_badlyFormed {s : State} {a : Access} (hmapped : classify s.msgBytes a.off ≠ .unmapped)
    (h : badlyFormed (classify s.msgBytes a.off) a.off a.size = true) : accessError s a = some .badAccess :=
  (if_neg hmapped).trans (if_pos h)

theorem accessError_of_busyWrite {s : State} {a : Access} (hmapped : classify s.msgBytes a.off ≠ .unmapped)
    (hformed : badlyFormed (classify s.msgBytes a.off) a.off a.size = false) (hwrite : a.kind = .write)
    (hbusy : s.eng ≠ .idle) (hstatus : classify s.msgBytes a.off ≠ .reg .status) : accessError s a = some .busy :=
  (if_neg hmapped).trans ((if_neg (Bool.eq_false_iff.1 hformed)).trans (if_pos ⟨hwrite, hbusy, hstatus⟩))

/-- The size and alignment check over the offset alone: a MSG index is a multiple of 4 where its offset is (R51, R209). -/
theorem badlyFormed_classify_iff {msgBytes : Nat} {off : BitVec 13} (hmapped : classify msgBytes off ≠ .unmapped)
    (size : AccessSize) :
    badlyFormed (classify msgBytes off) off size = true ↔
      size = .two ∨ (off.toNat < 0x1000 ∧ (size ≠ .four ∨ off.toNat % 4 ≠ 0)) ∨
        (0x1000 ≤ off.toNat ∧ size = .four ∧ off.toNat % 4 ≠ 0) := by
  cases hc : classify msgBytes off with
  | unmapped => exact absurd hc hmapped
  | reg r =>
    have hlt := classify_reg_lt hc
    cases size <;> simp [badlyFormed, hlt, Nat.not_le.2 hlt]
  | msg x =>
    obtain ⟨hoff, -⟩ := (classify_eq_msg_iff ..).1 hc
    have hindex : off.toNat % 4 = x % 4 := by omega
    have hge : 0x1000 ≤ off.toNat := by omega
    cases size <;> simp [badlyFormed, hindex, hge]

theorem State.busy_eq_true_iff (s : State) : s.busy = true ↔ s.eng ≠ .idle := decide_eq_true_iff

/-! ### The error record (R212) -/

theorem State.raise_of_no_err {s : State} (h : s.status.err = false) (e : CmdError) :
    s.raise e = { s with status := { s.status with err := true, errCode := e.code } } := by
  rw [raise, Status.record_of_no_err h]

theorem State.raise_of_err {s : State} (h : s.status.err = true) (e : CmdError) : s.raise e = s := by
  rw [raise, Status.record_of_err h]

/-! ### The statements -/

/-- Settles O10: each operand fails the check of its rule, and a failed check records its code alone. -/
theorem badOperandsAreRefused : Obligations.BadOperandsAreRefused := by
  intro s len plen w
  refine ⟨fun hlen => ?_, fun hw => ?_, fun hw hw' hlong => ?_, fun hw hw' hle hnonce => ?_⟩
  · have he := lenError_of_lt hlen
    exact ⟨exec_of_error (i := .digest len) he, exec_of_error (i := .digest2 len) he⟩
  · exact exec_of_candidateError (candidateError_of_badWidth s.msgBytes plen hw)
  · exact exec_of_candidateError (candidateError_of_tooLong hw hw' hlong)
  · have hi := (candidateError_eq_none_iff s.msgBytes plen w).2 ⟨hw, hw', hle⟩
    have he := (issueError_tryNonce_of_candidateError_eq_none hi).trans (nonceError_of_le hnonce)
    exact ⟨exec_of_error he, hi⟩

/-- Settles O11: the three checks in their order, each said of the offset alone. -/
theorem accessErrorsInOrder : Obligations.AccessErrorsInOrder := by
  intro s a
  simp only [← classify_eq_unmapped_iff, ← classify_eq_status_iff s.msgBytes, State.busy_eq_true_iff]
  by_cases hmapped : classify s.msgBytes a.off = .unmapped
  · rw [if_pos hmapped, accessError_of_unmapped hmapped]
  · simp only [if_neg hmapped, ← badlyFormed_classify_iff hmapped]
    split_ifs with hbad hbusy
    · exact accessError_of_badlyFormed hmapped hbad
    · obtain ⟨hwrite, hnotIdle, hstatus⟩ := hbusy
      exact accessError_of_busyWrite hmapped (Bool.eq_false_iff.2 hbad) hwrite hnotIdle hstatus
    · exact (accessError_eq_none_iff s a).2 ⟨hmapped, Bool.eq_false_iff.2 hbad, hbusy⟩

/-- Settles O13: the write meets BUSY, and a refused access changes the error record alone. -/
theorem busyWriteIsRefused : Obligations.BusyWriteIsRefused := by
  intro s off size data hold left i rest hbusy hin hmapped hstatus hformed
  have he : accessError s ⟨.write, off, size, data⟩ = some .busy :=
    accessError_of_busyWrite hmapped hformed rfl (by simp [hbusy]) hstatus
  exact (refusedAccessChangesOnlyTheErrorRecord s _ hold rest .busy hin he).2 i left hbusy

/-- Settles O21: a raised error leaves ERR at 1, so a second one is not recorded. -/
theorem firstErrorIsKept : Obligations.FirstErrorIsKept := fun _ e e' =>
  ⟨fun h => State.raise_of_no_err h e, fun h => State.raise_of_err h e, State.raise_of_err (Status.record_err ..) e'⟩

end Sys2Proof.Machine

/-! PROOFS. Reset, the STATUS read of a busy block and the completion of an accepted command (spec
70_reset_and_hazards.md R230, R231, R234, R235). -/

namespace Sys2Proof.Machine

/-! ### RESET (R230, R231) -/

/-- RESET as the next input gives the reset state, idle or before the completion of a command. -/
theorem step_reset {s : State} {rest : List Input} (hin : s.inputs = .reset :: rest) (heng : ∀ i, s.eng ≠ .busy i 0) :
    step s = .next { s.resetFrom with inputs := rest } := by
  cases hs : s.eng with
  | idle => rw [step_idle hs, takeInput_reset hin]
  | busy i left =>
    cases left with
    | zero => exact absurd hs (heng i)
    | succ k => rw [step_busy hs, takeInput_reset (by exact hin)]; rfl

/-- The reset state of STATUS on an idle block is the word 0 (R230). -/
theorem State.statusWord_of_reset {s : State} (hidle : s.eng = .idle) (hstatus : s.status = Status.reset) :
    s.statusWord = 0x00000000 := by
  rw [statusWord, busy, hidle, hstatus]; rfl

/-! ### The STATUS read of a busy block (R235) -/

/-- A 4-byte read of STATUS passes the checks of R52, idle or busy. -/
theorem accessError_statusRead (s : State) (data : Word) : accessError s ⟨.read, 0x004, .four, data⟩ = none := by
  rw [accessError_eq_none_iff, classify_status]
  exact ⟨nofun, by simp [badlyFormed], by simp⟩

/-- A STATUS read of a busy block gives the host the word of R235. -/
theorem State.hostRead_status_busy {s : State} (hbusy : s.eng ≠ .idle) (data : Word) :
    (s.hostRead ⟨.read, 0x004, .four, data⟩).readData = s.busyStatusWord := by
  rw [hostRead_readData, if_pos (s.busy_eq_true_iff.2 hbusy), classify_status]; rfl

/-! ### Steps of a busy block with no input (R234) -/

/-- With no input to come a step of a busy block takes one from the count before the completion. -/
theorem step_busy_nil {s : State} {i : Instr} {left : Nat} (hbusy : s.eng = .busy i (left + 1)) (hin : s.inputs = []) :
    step s = .next { s with eng := .busy i left } := by
  rw [step_busy hbusy, takeInput_nil (by exact hin)]

/-! ### The statements -/

/-- Settles O23: the access is an accepted read of the word of R235, whose fields are those of STATUS. -/
theorem busyStatusReadIsTrueInBusyAndError : Obligations.BusyStatusReadIsTrueInBusyAndError := by
  intro s data hold left i rest hbusy hin
  refine ⟨_, (step_access_busy hbusy hin).trans (hostAccess_read (accessError_statusRead _ data) rfl hold), ?_⟩
  rw [State.hostRead_status_busy (s := { s with eng := .busy i left, inputs := rest }) nofun, State.busyStatusWord]
  obtain ⟨hbit, herr, -⟩ := statusWordOf_flags ..
  obtain ⟨hlow, hcode, hhigh⟩ := statusWordOf_fields ..
  exact ⟨hbit, herr, hcode, hlow, hhigh⟩

/-- Settles O24: the step gives `State.resetFrom`, whose registers hold the values of R230. -/
theorem resetInputGivesTheResetState : Obligations.ResetInputGivesTheResetState := by
  intro s rest hin heng
  exact ⟨_, step_reset hin heng, rfl, State.statusWord_of_reset rfl rfl, rfl, rfl,
    fun i => Vector.getElem_replicate i.isLt, fun i => Vector.getElem_replicate i.isLt, Memory.read_nil, rfl, rfl, rfl⟩

/-- Settles O55, by induction on the inputs before the completion: each step counts one off, the last one completes. -/
theorem busyCommandCompletes : Obligations.BusyCommandCompletes := by
  intro s i left hbusy hin
  induction left generalizing s with
  | zero => rw [run_one, step_complete hbusy]
  | succ k ih => rw [run_next (step_busy_nil hbusy hin)]; exact ih { s with eng := .busy i k } rfl hin

end Sys2Proof.Machine
